-- ==== Sys2Proof/Word.lean ====
section
/-!
DEFINITION. The word types of the CHIP-8 core: every value is an unsigned number of a stated width
(spec rules R8, R9 and R12 of 00_scope.md).
-/

namespace Sys2Proof

/-- A stored byte or general register, `u8` (R8). -/
abbrev Byte := BitVec 8

/-- An instruction word, pc, I or saved return address, `u16` (R8, R75). -/
abbrev Word := BitVec 16

/-- The field NNN, bits 11..0 (R12). -/
abbrev Imm12 := BitVec 12

/-- The field N, bits 3..0, or a tag (R12, R75). -/
abbrev Nibble := BitVec 4

/-- The index of a general register V0..VF, and of a key 0x0..0xF (R17, R31). -/
abbrev RegIx := Fin 16

/-- The index of a framebuffer cell, 0..2047 (R10, R32). -/
abbrev CellIx := Fin 2048

/-- V15, the flag register VF (R23). -/
abbrev vf : RegIx := 15

end Sys2Proof
end

