-- ==== Sys2Proof/Config.lean ====
section
/-!
DEFINITION. What the spec leaves to the model as an argument (spec rule R7 of 00_scope.md): the type of the font
table, and the free `RAND` draw. The fixed parameters of R6 stand as numerals where they are used: 4096 bytes,
PROG_BASE 0x200, MAX_IMAGE 3584, 64 columns, 32 rows, 5 bytes a glyph.
-/

namespace Sys2Proof.Config

/-- The parameter FONT: 80 bytes, 16 glyphs of 5 (R7, R33). -/
abbrev Font := Vector Byte 80

/-- FREE VALUE (DESIGN CHOICE, log entry 3). The byte `Draw8()` returns on the draw of that number: any `u8`, under no law
(R7, R10, R174, decision D12). It has no body, so no proof can rest on its value. -/
opaque randomByte : Nat → Byte

end Sys2Proof.Config
end

