-- ==== Sys2Proof/Syntax.lean ====
section
/-!
DEFINITION. The 35 operations of the opcode map (spec rule R82 of 30_encoding.md), one constructor per row of
spec/opcode_table.json, in the table's order, with every field the encoding holds (R12, R75).
-/

namespace Sys2Proof

/-- A decoded instruction. `x` and `y` are the register fields, `n`, `nn`, `nnn` the immediates of R12. -/
inductive Instr where
  /-- 0NNN, SYS NNN (R101) -/
  | sys (nnn : Imm12)
  /-- 00E0, CLS (R121) -/
  | cls
  /-- 00EE, RET (R102) -/
  | ret
  /-- 1NNN, JP NNN (R103) -/
  | jp (nnn : Imm12)
  /-- 2NNN, CALL NNN (R104) -/
  | call (nnn : Imm12)
  /-- 3XNN, SE VX, NN (R141) -/
  | seImm (x : RegIx) (nn : Byte)
  /-- 4XNN, SNE VX, NN (R142) -/
  | sneImm (x : RegIx) (nn : Byte)
  /-- 5XY0, SE VX, VY (R143) -/
  | seReg (x y : RegIx)
  /-- 6XNN, LD VX, NN (R161) -/
  | ldImm (x : RegIx) (nn : Byte)
  /-- 7XNN, ADD VX, NN (R162) -/
  | addImm (x : RegIx) (nn : Byte)
  /-- 8XY0, LD VX, VY (R163) -/
  | ldReg (x y : RegIx)
  /-- 8XY1, OR VX, VY (R165) -/
  | orReg (x y : RegIx)
  /-- 8XY2, AND VX, VY (R166) -/
  | andReg (x y : RegIx)
  /-- 8XY3, XOR VX, VY (R167) -/
  | xorReg (x y : RegIx)
  /-- 8XY4, ADD VX, VY (R168) -/
  | addReg (x y : RegIx)
  /-- 8XY5, SUB VX, VY (R169) -/
  | sub (x y : RegIx)
  /-- 8XY6, SHR VX; the field Y is encoded and not read (R171) -/
  | shr (x y : RegIx)
  /-- 8XY7, SUBN VX, VY (R172) -/
  | subn (x y : RegIx)
  /-- 8XYE, SHL VX; the field Y is encoded and not read (R173) -/
  | shl (x y : RegIx)
  /-- 9XY0, SNE VX, VY (R144) -/
  | sneReg (x y : RegIx)
  /-- ANNN, LD I, NNN (R190) -/
  | ldI (nnn : Imm12)
  /-- BNNN, JP V0, NNN (R108) -/
  | jpV0 (nnn : Imm12)
  /-- CXNN, RND VX, NN (R174) -/
  | rnd (x : RegIx) (nn : Byte)
  /-- DXYN, DRW VX, VY, N (R122) -/
  | drw (x y : RegIx) (n : Nibble)
  /-- EX9E, SKP VX (R145) -/
  | skp (x : RegIx)
  /-- EXA1, SKNP VX (R146) -/
  | sknp (x : RegIx)
  /-- FX07, LD VX, DT (R210) -/
  | ldVxDt (x : RegIx)
  /-- FX0A, LD VX, K (R211) -/
  | ldVxK (x : RegIx)
  /-- FX15, LD DT, VX (R213) -/
  | ldDtVx (x : RegIx)
  /-- FX18, LD ST, VX (R214) -/
  | ldStVx (x : RegIx)
  /-- FX1E, ADD I, VX (R191) -/
  | addIVx (x : RegIx)
  /-- FX29, LD F, VX (R192) -/
  | ldFVx (x : RegIx)
  /-- FX33, LD B, VX (R193) -/
  | ldBVx (x : RegIx)
  /-- FX55, LD [I], VX (R196) -/
  | ldMiVx (x : RegIx)
  /-- FX65, LD VX, [I] (R197) -/
  | ldVxMi (x : RegIx)
  deriving DecidableEq, Repr

end Sys2Proof
end

