-- ==== Sys2Proof/WellFormed.lean ====
section
/-!
DEFINITION. Which terms of `Instr` are instructions: the operand types already bound every field, so the one
check left is the table's exception on row SYS (spec rules R81 and R82 of 30_encoding.md).
-/

namespace Sys2Proof

/-- The words 0x00E0 and 0x00EE are CLS and RET, never SYS (R81, R82 row 1). -/
def Instr.WellFormed : Instr → Bool
  | .sys nnn => nnn != 0x0E0#12 && nnn != 0x0EE#12
  | _ => true

end Sys2Proof
end

