-- ==== Sys2Proof/Decode.lean ====
section
/-!
DEFINITION. The decoder, total on every word and on every list of bytes, and the encoder, both written from the
opcode map and the field layout (spec rules R75 to R83 of 30_encoding.md, R54 of 20_memory.md).
-/

namespace Sys2Proof

/-! ### Fields of the instruction word (R12, R75, R76) -/

/-- The tag, bits 15..12 (R75). -/
def fieldT (w : Word) : Nibble := w.extractLsb' 12 4

/-- X, bits 11..8, a register index (R12). -/
def fieldX (w : Word) : RegIx := (w.extractLsb' 8 4).toFin

/-- Y, bits 7..4, a register index (R12). -/
def fieldY (w : Word) : RegIx := (w.extractLsb' 4 4).toFin

/-- N, bits 3..0 (R12). -/
def fieldN (w : Word) : Nibble := w.extractLsb' 0 4

/-- NN, bits 7..0 (R12). -/
def fieldNN (w : Word) : Byte := w.extractLsb' 0 8

/-- NNN, bits 11..0 (R12). -/
def fieldNNN (w : Word) : Imm12 := w.extractLsb' 0 12

/-! ### The decoder -/

/-- Why a string of bytes is no instruction. -/
inductive DecodeError where
  /-- Fewer than the two bytes of an instruction are there (R75). Raised by `decodeBytes` only. -/
  | truncated
  /-- The word matches none of the 35 operations (R79, R80, R83). -/
  | noOperation (w : Word)
  deriving DecidableEq, Repr

/-- Tag 0x0, decoded by the whole word (R78, R81). -/
def decodeTag0 (w : Word) : Instr :=
  if w = 0x00E0#16 then .cls else if w = 0x00EE#16 then .ret else .sys (fieldNNN w)

/-- Tag 0x8, decoded by N (R78, R81). -/
def decodeTag8 (w : Word) : Except DecodeError Instr :=
  match (fieldN w).toNat with
  | 0x0 => .ok (.ldReg (fieldX w) (fieldY w))
  | 0x1 => .ok (.orReg (fieldX w) (fieldY w))
  | 0x2 => .ok (.andReg (fieldX w) (fieldY w))
  | 0x3 => .ok (.xorReg (fieldX w) (fieldY w))
  | 0x4 => .ok (.addReg (fieldX w) (fieldY w))
  | 0x5 => .ok (.sub (fieldX w) (fieldY w))
  | 0x6 => .ok (.shr (fieldX w) (fieldY w))
  | 0x7 => .ok (.subn (fieldX w) (fieldY w))
  | 0xE => .ok (.shl (fieldX w) (fieldY w))
  | _ => .error (.noOperation w)

/-- Tag 0xE, decoded by NN (R78, R81). -/
def decodeTagE (w : Word) : Except DecodeError Instr :=
  if fieldNN w = 0x9E#8 then .ok (.skp (fieldX w))
  else if fieldNN w = 0xA1#8 then .ok (.sknp (fieldX w))
  else .error (.noOperation w)

/-- Tag 0xF, decoded by NN (R78, R81). -/
def decodeTagF (w : Word) : Except DecodeError Instr :=
  if fieldNN w = 0x07#8 then .ok (.ldVxDt (fieldX w))
  else if fieldNN w = 0x0A#8 then .ok (.ldVxK (fieldX w))
  else if fieldNN w = 0x15#8 then .ok (.ldDtVx (fieldX w))
  else if fieldNN w = 0x18#8 then .ok (.ldStVx (fieldX w))
  else if fieldNN w = 0x1E#8 then .ok (.addIVx (fieldX w))
  else if fieldNN w = 0x29#8 then .ok (.ldFVx (fieldX w))
  else if fieldNN w = 0x33#8 then .ok (.ldBVx (fieldX w))
  else if fieldNN w = 0x55#8 then .ok (.ldMiVx (fieldX w))
  else if fieldNN w = 0x65#8 then .ok (.ldVxMi (fieldX w))
  else .error (.noOperation w)

/-- `Decode(w)` (R81): the tag first, then the second discriminant. Tags 0x5 and 0x9 match only when N is 0 (R79). -/
def decodeWord (w : Word) : Except DecodeError Instr :=
  match (fieldT w).toNat with
  | 0x0 => .ok (decodeTag0 w)
  | 0x1 => .ok (.jp (fieldNNN w))
  | 0x2 => .ok (.call (fieldNNN w))
  | 0x3 => .ok (.seImm (fieldX w) (fieldNN w))
  | 0x4 => .ok (.sneImm (fieldX w) (fieldNN w))
  | 0x5 => if fieldN w = 0#4 then .ok (.seReg (fieldX w) (fieldY w)) else .error (.noOperation w)
  | 0x6 => .ok (.ldImm (fieldX w) (fieldNN w))
  | 0x7 => .ok (.addImm (fieldX w) (fieldNN w))
  | 0x8 => decodeTag8 w
  | 0x9 => if fieldN w = 0#4 then .ok (.sneReg (fieldX w) (fieldY w)) else .error (.noOperation w)
  | 0xA => .ok (.ldI (fieldNNN w))
  | 0xB => .ok (.jpV0 (fieldNNN w))
  | 0xC => .ok (.rnd (fieldX w) (fieldNN w))
  | 0xD => .ok (.drw (fieldX w) (fieldY w) (fieldN w))
  | 0xE => decodeTagE w
  | _ => decodeTagF w

/-- `(hi << 8) | lo`: the byte at the lower address is the high one (R54, R71). -/
def wordOfBytes (hi lo : Byte) : Word := (hi.setWidth 16 <<< 8) ||| lo.setWidth 16

/-- Decodes the two bytes at the front and answers the rest with the instruction (R54, R75). -/
def decodeBytes : List Byte → Except DecodeError (Instr × List Byte)
  | hi :: lo :: rest =>
    match decodeWord (wordOfBytes hi lo) with
    | .ok i => .ok (i, rest)
    | .error e => .error e
  | _ => .error .truncated

/-! ### The encoder -/

/-- The shape `T_NNN` (R75). -/
def wordNNN (t : Nibble) (nnn : Imm12) : Word := t ++ nnn

/-- The shapes `T_XNN` and `T_X_NN` (R75). -/
def wordXNN (t : Nibble) (x : RegIx) (nn : Byte) : Word := (t ++ BitVec.ofFin (w := 4) x : BitVec 8) ++ nn

/-- The shape `T_XYN` (R75). -/
def wordXYN (t : Nibble) (x y : RegIx) (n : Nibble) : Word :=
  (t ++ BitVec.ofFin (w := 4) x : BitVec 8) ++ (BitVec.ofFin (w := 4) y ++ n : BitVec 8)

/-- The word of an instruction, from the `encoding` column of spec/opcode_table.json (R75, R82). -/
def encode : Instr → Word
  | .sys nnn => wordNNN 0x0#4 nnn
  | .cls => 0x00E0#16
  | .ret => 0x00EE#16
  | .jp nnn => wordNNN 0x1#4 nnn
  | .call nnn => wordNNN 0x2#4 nnn
  | .seImm x nn => wordXNN 0x3#4 x nn
  | .sneImm x nn => wordXNN 0x4#4 x nn
  | .seReg x y => wordXYN 0x5#4 x y 0x0#4
  | .ldImm x nn => wordXNN 0x6#4 x nn
  | .addImm x nn => wordXNN 0x7#4 x nn
  | .ldReg x y => wordXYN 0x8#4 x y 0x0#4
  | .orReg x y => wordXYN 0x8#4 x y 0x1#4
  | .andReg x y => wordXYN 0x8#4 x y 0x2#4
  | .xorReg x y => wordXYN 0x8#4 x y 0x3#4
  | .addReg x y => wordXYN 0x8#4 x y 0x4#4
  | .sub x y => wordXYN 0x8#4 x y 0x5#4
  | .shr x y => wordXYN 0x8#4 x y 0x6#4
  | .subn x y => wordXYN 0x8#4 x y 0x7#4
  | .shl x y => wordXYN 0x8#4 x y 0xE#4
  | .sneReg x y => wordXYN 0x9#4 x y 0x0#4
  | .ldI nnn => wordNNN 0xA#4 nnn
  | .jpV0 nnn => wordNNN 0xB#4 nnn
  | .rnd x nn => wordXNN 0xC#4 x nn
  | .drw x y n => wordXYN 0xD#4 x y n
  | .skp x => wordXNN 0xE#4 x 0x9E#8
  | .sknp x => wordXNN 0xE#4 x 0xA1#8
  | .ldVxDt x => wordXNN 0xF#4 x 0x07#8
  | .ldVxK x => wordXNN 0xF#4 x 0x0A#8
  | .ldDtVx x => wordXNN 0xF#4 x 0x15#8
  | .ldStVx x => wordXNN 0xF#4 x 0x18#8
  | .addIVx x => wordXNN 0xF#4 x 0x1E#8
  | .ldFVx x => wordXNN 0xF#4 x 0x29#8
  | .ldBVx x => wordXNN 0xF#4 x 0x33#8
  | .ldMiVx x => wordXNN 0xF#4 x 0x55#8
  | .ldVxMi x => wordXNN 0xF#4 x 0x65#8

/-- The high and the low byte of a word, the high one at the lower address (R54). -/
def bytesOfWord (w : Word) : List Byte := [w.extractLsb' 8 8, w.extractLsb' 0 8]

/-- The bytes of an instruction in the order memory holds them (R54). -/
def encodeBytes (i : Instr) : List Byte := bytesOfWord (encode i)

/-- The first word of a number whose bits are counted as spec/opcode_table.json counts them: bit 0 is the least
significant bit of the word. Every instruction of this machine is that one word (R75, R84). -/
def tableWord (nbits w : Nat) : Word := BitVec.ofNat 16 (w % 2 ^ nbits)

/-- What the decoder reads from the bytes of the word whose bits are `w`. -/
def decodeTableWord (nbits w : Nat) : Option Instr :=
  match decodeBytes (bytesOfWord (tableWord nbits w)) with
  | .ok (i, _) => some i
  | .error _ => none

end Sys2Proof
end

