-- ==== Sys2Proof/Machine/State.lean ====
section
/-!
DEFINITION. The machine state, plain data: the record of spec rule R20 (10_state.md) and beside it what carries the
arguments of R40; the fault record of R233 (60_exceptions.md), the reasons a step can stop, the state after reset (R39).
-/

namespace Sys2Proof.Machine

/-- The causes of a fault (R231). -/
inductive FaultCause where
  /-- Code 1: 00EE with an empty stack. -/
  | stackUnderflow
  /-- Code 2: 2NNN at the capacity P_STACK_CAPACITY. -/
  | stackOverflow
  /-- Code 3: an address of 4096 or more (fetch, DXYN, FX33, FX55, FX65). -/
  | memoryOutOfRange
  /-- Code 4: EX9E or EXA1 with VX of 16 or more. -/
  | keyIndexOutOfRange
  deriving DecidableEq, Repr

/-- The fault record (R35, R233). -/
structure FaultRecord where
  /-- The cause (R231). -/
  cause : FaultCause
  /-- The address of the instruction whose cycle faulted. -/
  ia : Word
  /-- The fetched word, none for a fetch fault. -/
  word : Option Word
  /-- The `info` column of R231. -/
  info : Option Nat
  deriving DecidableEq, Repr

/-- Memory: the listed bytes, addresses strictly rising, no entry equal to what an unlisted address reads as
(`Memory.wf` in Machine/Memory.lean). The whole space is the 4096 bytes of R50. -/
abbrev Memory := List Host.Cell

/-- The 64 × 32 framebuffer, row by row from row 0 down: column x of a row is bit x (R32). The flat cell `y·64 + x` of
R120 is reached through `Framebuffer.cell` in Machine/Ops.lean (DESIGN CHOICE, log entry 8). -/
abbrev Framebuffer := Vector (BitVec 64) 32

/-- The Machine State: exactly R20's record. No parameter and no draw is a field of it (R40). -/
structure MachineState where
  /-- Memory (R34, R50). -/
  mem : Memory
  /-- V0..VF (R21). -/
  v : Vector Byte 16
  /-- The index register I (R28). -/
  i : Word
  /-- The program counter (R25). -/
  pc : Word
  /-- The call stack, top at the end (R20, R29). -/
  stack : List Word
  /-- The delay timer DT (R30). -/
  dt : Byte
  /-- The sound timer ST (R30). -/
  st : Byte
  /-- The keypad (R31). -/
  key : Vector Bool 16
  /-- The framebuffer (R32). -/
  fb : Framebuffer
  /-- The latched fault (R35). -/
  fault : Option FaultRecord
  deriving DecidableEq, Repr

/-- What `exec` and `step` run on: the Machine State, and beside it two fields that carry arguments of the model (R40),
for which `exec` and `step` have no other place. They are no state of the spec: Machine/Arguments.lean gives the cycle
on a `MachineState` with the arguments as arguments. -/
structure State extends MachineState where
  /-- The argument RAND (DESIGN CHOICE, log entry 3): the number of the next draw (R7, R37, R40). -/
  draws : Nat
  /-- The argument P_STACK_CAPACITY (DESIGN CHOICE, log entry 4; R7, R40). No step changes it. -/
  stackCap : Option Nat
  deriving DecidableEq, Repr

/-- Why the machine takes no step. -/
inductive Fault where
  /-- Raised by `step` alone, from a state in which a fault is latched: "a model gives the core no step from such a
  state" (R235). It carries the latched record, the host's diagnostic (R232). Safe: it is the spec's own stop (DEDUCED, log
  entry 5). -/
  | halted (record : FaultRecord)
  deriving DecidableEq, Repr

/-- Why an instruction has no meaning. -/
inductive Refusal where
  /-- Raised by an arm of `exec` whose instruction has no meaning yet; no arm is left so. Safe. -/
  | notModelled (mnemonic : String)
  deriving DecidableEq, Repr

/-- The machine right after reset (R39, R263, R264), no program placed: pc at 0x200 and every other piece of state
zero or empty. Memory lists nothing: it reads as the default FONT (PRESUMED, log entry 1) and zeros
(DESIGN CHOICE, log entry 2). P_STACK_CAPACITY is its default, none (R7); `State.resetWith` takes it as an argument. -/
def State.reset : State where
  mem := []
  v := Vector.replicate 16 0#8
  i := 0#16
  pc := 0x200#16
  stack := []
  dt := 0#8
  st := 0#8
  key := Vector.replicate 16 false
  fb := Vector.replicate 32 0#64
  fault := none
  draws := 0
  stackCap := none

end Sys2Proof.Machine
end

