-- ==== Sys2Proof/Machine/Memory.lean ====
section
/-!
DEFINITION. The 4096 bytes: what an unlisted address reads as, the canonical form, one read and one write, and the
access primitives of spec rules R52, R53 and R64 (20_memory.md). The default font is R33's table (10_state.md).
-/

namespace Sys2Proof.Machine

/-- The default FONT, glyphs 0 to 7 (R33). -/
def defaultFontLow : List Byte :=
  [0xF0, 0x90, 0x90, 0x90, 0xF0] ++ [0x20, 0x60, 0x20, 0x20, 0x70] ++ [0xF0, 0x10, 0xF0, 0x80, 0xF0] ++
  [0xF0, 0x10, 0xF0, 0x10, 0xF0] ++ [0x90, 0x90, 0xF0, 0x10, 0x10] ++ [0xF0, 0x80, 0xF0, 0x10, 0xF0] ++
  [0xF0, 0x80, 0xF0, 0x90, 0xF0] ++ [0xF0, 0x10, 0x20, 0x40, 0x40]

/-- The default FONT, glyphs 8 to F (R33). -/
def defaultFontHigh : List Byte :=
  [0xF0, 0x90, 0xF0, 0x90, 0xF0] ++ [0xF0, 0x90, 0xF0, 0x10, 0xF0] ++ [0xF0, 0x90, 0xF0, 0x90, 0x90] ++
  [0xE0, 0x90, 0xE0, 0x90, 0xE0] ++ [0xF0, 0x80, 0x80, 0x80, 0xF0] ++ [0xE0, 0x90, 0x90, 0x90, 0xE0] ++
  [0xF0, 0x80, 0xF0, 0x80, 0xF0] ++ [0xF0, 0x80, 0xF0, 0x80, 0x80]

/-- The default FONT as one list, one byte per glyph row, top row first (R33). PRESUMED, log entry 1. -/
def defaultFontBytes : List Byte := defaultFontLow ++ defaultFontHigh

/-- The default value of the parameter FONT (R7, R33). -/
def defaultFont : Config.Font := ⟨⟨defaultFontBytes⟩, rfl⟩

/-- What an address that memory does not list reads as: the default FONT in the low 80 bytes and 0 elsewhere, the
contents `load` leaves for a zero-length image (R39, R260). PRESUMED, log entry 1, and DESIGN CHOICE, log entry 2. -/
def initialByte (a : Nat) : Byte := defaultFontBytes.getD a 0#8

/-- The byte at an address. -/
def Memory.read : Memory → Nat → Byte
  | [], a => initialByte a
  | (b, v) :: m, a => if b = a then v else Memory.read m a

/-- Lists a byte at its place in the rising order. -/
def Memory.insert : Memory → Nat → Byte → Memory
  | [], a, v => [(a, v)]
  | (b, w) :: m, a, v =>
    if a < b then (a, v) :: (b, w) :: m
    else if a = b then (a, v) :: m
    else (b, w) :: Memory.insert m a v

/-- Takes an address out of the list. -/
def Memory.erase : Memory → Nat → Memory
  | [], _ => []
  | (b, w) :: m, a => if b = a then Memory.erase m a else (b, w) :: Memory.erase m a

/-- Writes one byte and keeps the canonical form. At 4096 and above there is no byte, so nothing is written: every
caller has made the check of R53 first (DEDUCED, log entry 10). -/
def Memory.write (m : Memory) (a : Nat) (v : Byte) : Memory :=
  if a < 4096 then
    if v = initialByte a then m.erase a else m.insert a v
  else m

/-- The canonical form from a lowest address on. -/
def Memory.wfFrom : Nat → Memory → Bool
  | _, [] => true
  | lo, (a, v) :: m =>
    decide (lo ≤ a) && decide (a < 4096) && (v != initialByte a) && Memory.wfFrom (a + 1) m

/-- The canonical form: addresses strictly rising, all below 4096, no entry equal to what an unlisted address
reads as. -/
def Memory.wf (m : Memory) : Bool := Memory.wfFrom 0 m

/-- `MemRead(addr, 1)` (R52): the byte, or the address that is out of range. -/
def memRead (m : Memory) (addr : Nat) : Except Nat Byte :=
  if 4096 ≤ addr then .error addr else .ok (m.read addr)

/-- `MemWrite(addr, 1, v)` (R53): the memory after it, or the address that is out of range. -/
def memWrite (m : Memory) (addr : Nat) (v : Byte) : Except Nat Memory :=
  if 4096 ≤ addr then .error addr else .ok (m.write addr v)

/-- The check an instruction makes before it touches `n` bytes from `base` on: the highest address when that is
4096 or more (R64, R194, and R122 for `n = 0`, which touches nothing). -/
def rangeFault (base n : Nat) : Option Nat :=
  if n = 0 then none
  else if 4096 ≤ base + n - 1 then some (base + n - 1)
  else none

/-- The `n` bytes from `base` on, lowest address first. -/
def readBlock (m : Memory) (base : Nat) : Nat → List Byte
  | 0 => []
  | n + 1 => m.read base :: readBlock m (base + 1) n

/-- Writes bytes from `base` on, lowest address first. -/
def writeBlock (m : Memory) (base : Nat) : List Byte → Memory
  | [] => m
  | b :: bs => writeBlock (m.write base b) (base + 1) bs

end Sys2Proof.Machine
end

