-- ==== Sys2Proof/Machine/Ops.lean ====
section
/-!
DEFINITION. The named operations over the state (spec rule R10 of 00_scope.md): registers, pc, stack, and taking a
fault, once for the whole machine (R232 to R234 of 60_exceptions.md).
-/

namespace Sys2Proof.Machine

/-- What one instruction or one cycle answers. -/
abbrev Result := Host.Outcome State Fault Refusal

/-! ### Registers -/

/-- `V[i]` (R10, R21). -/
def State.reg (s : State) (x : RegIx) : Byte := s.v[x.val]

/-- `V[i] <- v` (R10, R21). -/
def State.setReg (s : State) (x : RegIx) (b : Byte) : State := { s with v := s.v.set x.val b }

/-- `I <- v` (R10, R28). -/
def State.setI (s : State) (a : Word) : State := { s with i := a }

/-- `pc <- target` (R10, R100): no alignment and no check when it is written. -/
def State.setPc (s : State) (a : Word) : State := { s with pc := a }

/-- `DT <- v` (R10, R30). -/
def State.setDt (s : State) (b : Byte) : State := { s with dt := b }

/-- `ST <- v` (R10, R30). -/
def State.setSt (s : State) (b : Byte) : State := { s with st := b }

/-- The memory after an instruction's stores. -/
def State.setMem (s : State) (m : Memory) : State := { s with mem := m }

/-- The framebuffer after an instruction's drawing. -/
def State.setFb (s : State) (f : Framebuffer) : State := { s with fb := f }

/-- `key[k]` (R10, R31). -/
def State.keyDown (s : State) (k : RegIx) : Bool := s.key[k.val]

/-! ### Framebuffer -/

/-- The cell of column `x` and row `y` with both wraps, `(y mod 32)·64 + (x mod 64)` (R120, R122). -/
def cellIndex (x y : Nat) : CellIx := ⟨y % 32 * 64 + x % 64, by omega⟩

/-- `fb[j]`: row `j div 64`, column `j mod 64` (R10, R32, R120). -/
def Framebuffer.cell (f : Framebuffer) (j : CellIx) : Bool :=
  (f[j.val / 64]'(by omega)).getLsbD (j.val % 64)

/-- `fb[j] <- fb[j] ^ 1` (R122). -/
def Framebuffer.flip (f : Framebuffer) (j : CellIx) : Framebuffer :=
  f.set (j.val / 64) ((f[j.val / 64]'(by omega)) ^^^ BitVec.twoPow 64 (j.val % 64)) (by omega)

/-- Every cell 0 (R121). -/
def Framebuffer.clear : Framebuffer := Vector.replicate 32 0#64

/-- `fb[j]` of a state (R10). -/
def State.fbCell (s : State) (j : CellIx) : Bool := s.fb.cell j

/-! ### pc and stack -/

/-- The fetch's advance, `pc <- (ia + 2) mod 2^16` (R72). -/
def State.advance (s : State) : State := s.setPc (s.pc + 2#16)

/-- The address of the instruction in execution: pc is `ia + 2` (R13, R25; DEDUCED, log entry 7). -/
def State.instrAddr (s : State) : Word := s.pc - 2#16

/-- `Push(v)`: the top is at the end (R10, R29). -/
def State.push (s : State) (a : Word) : State := { s with stack := s.stack ++ [a] }

/-- `Pop()`: the top and the state without it, none when the stack is empty (R10, R102). -/
def State.pop (s : State) : Option (Word × State) :=
  match s.stack.getLast? with
  | none => none
  | some a => some (a, { s with stack := s.stack.dropLast })

/-- One fresh `RAND` draw (R10, R174): the free value of that number, and the counter moved on. -/
def State.draw8 (s : State) : Byte × State := (Config.randomByte s.draws, { s with draws := s.draws + 1 })

/-! ### Taking a fault

There is no return from a fault to stand beside it: only the host's `load` and `reset` leave the halted state
(R236; `hostLoad` and `hostReset` in Machine/HostSteps.lean). -/

/-- `fault <- {cause, ia, word, info}` (R232, R233): the record is latched and nothing else changes. -/
def State.latch (s : State) (f : FaultRecord) : State := { s with fault := some f }

/-- A fault of a fetch (R73, R233, R234): `ia` is the pc, which has not advanced, and there is no word. -/
def fetchFault (addr : Nat) (s : State) : Result :=
  .next (s.latch { cause := .memoryOutOfRange, ia := s.pc, word := none, info := some addr })

/-- A fault of an instruction in execution (R232 to R234): the state stays as the fetch left it. The fetched word is
the instruction's own (DEDUCED, log entry 7). -/
def raiseFault (cause : FaultCause) (i : Instr) (info : Option Nat) (s : State) : Result :=
  .next (s.latch { cause := cause, ia := s.instrAddr, word := some (encode i), info := info })

/-- An instruction that touches `n` bytes from `base` on: the check of every address comes before its first
write (R64, R194, R234). -/
def withRange (i : Instr) (base n : Nat) (s t : State) : Result :=
  match rangeFault base n with
  | some a => raiseFault .memoryOutOfRange i (some a) s
  | none => .next t

/-- The cause codes; 0 means none (R231). -/
def FaultCause.code : FaultCause → Byte
  | .stackUnderflow => 1#8
  | .stackOverflow => 2#8
  | .memoryOutOfRange => 3#8
  | .keyIndexOutOfRange => 4#8

end Sys2Proof.Machine
end

