-- ==== Sys2Proof/Machine/Flags.lean ====
section
/-!
DEFINITION. The values VF takes (spec rules R24, R160, R168 to R173 and R122): the carry, the two borrows, the bits
shifted out, the collision.
-/

namespace Sys2Proof.Machine

/-- A truth value as the byte VF holds. -/
def flagByte (b : Bool) : Byte := if b then 1#8 else 0#8

/-- 8XY4: 1 if the exact sum exceeds 255 (R168). -/
def carryFlag (a b : Byte) : Byte := flagByte (decide (255 < a.toNat + b.toNat))

/-- 8XY5 and 8XY7: 0 if `a - b` borrows, else 1 (R169, R172). -/
def noBorrowFlag (a b : Byte) : Byte := if a.toNat < b.toNat then 0#8 else 1#8

/-- 8XY6: the least significant bit before the shift (R171). -/
def shrFlag (a : Byte) : Byte := a &&& 1#8

/-- 8XYE: the most significant bit before the shift (R173). -/
def shlFlag (a : Byte) : Byte := (a &&& 0x80#8) >>> 7

/-- Writes the flag register. -/
def State.setVf (s : State) (b : Byte) : State := s.setReg vf b

end Sys2Proof.Machine
end

