-- ==== Sys2Proof/Machine/Operands.lean ====
section
/-!
DEFINITION. The operand forms (spec rules R12, R64, R76, R140, R192, R211): zero-extended immediates, addresses
relative to I, glyph addresses, the skip, the key operands and the decimal digits.
-/

namespace Sys2Proof.Machine

/-- NNN as a 16-bit address, zero-extended (R76). -/
def addrOf (nnn : Imm12) : Word := nnn.setWidth 16

/-- A register as a 16-bit value, zero-extended (R76). -/
def State.reg16 (s : State) (x : RegIx) : Word := (s.reg x).setWidth 16

/-- `I + k` as an exact natural number, with no wrap (R64). -/
def State.iAddr (s : State) (k : Nat) : Nat := s.i.toNat + k

/-- The target of BNNN: `V[0] + NNN` (R76, R108). -/
def State.jumpOffset (s : State) (nnn : Imm12) : Word := s.reg16 0 + addrOf nnn

/-- `I <- (I + k) mod 2^16` (R195). -/
def State.advanceI (s : State) (k : Word) : State := s.setI (s.i + k)

/-- The glyph address `V[X] * 5`, with no mask (R192). -/
def State.glyphAddr (s : State) (x : RegIx) : Word := s.reg16 x * 5#16

/-- "Skip next instruction": `pc <- pc + 2` when the condition holds (R140). -/
def State.skipIf (s : State) (c : Bool) : State := if c then s.setPc (s.pc + 2#16) else s

/-- The key index a byte names, none for 16 and above: the low nibble is not taken (R147). -/
def keyIndex (b : Byte) : Option RegIx := if h : b.toNat < 16 then some ⟨b.toNat, h⟩ else none

/-- The highest-indexed pressed key: the last hit of an ascending scan over all 16 keys (R211, R212). -/
def State.highestKey (s : State) : Option RegIx :=
  (List.finRange 16).foldl (fun found k => if s.keyDown k then some k else found) none

/-- The three decimal digits of a byte, hundreds first (R193). -/
def bcdDigits (b : Byte) : List Byte :=
  [BitVec.ofNat 8 (b.toNat / 100), BitVec.ofNat 8 (b.toNat / 10 % 10), BitVec.ofNat 8 (b.toNat % 10)]

/-- The registers V0..VX in order (R196, R197). -/
def regsUpTo (x : RegIx) : List RegIx := (List.finRange 16).take (x.val + 1)

/-- The bytes of V0..VX (R196). -/
def State.regBytes (s : State) (x : RegIx) : List Byte := (regsUpTo x).map s.reg

/-- `for i: V[i] <- MemRead(base + i, 1)` over a list of registers (R197). -/
def State.loadRegs (s : State) (base : Nat) : List RegIx → State
  | [] => s
  | r :: rs => State.loadRegs (s.setReg r (s.mem.read (base + r.val))) base rs

end Sys2Proof.Machine
end

