-- ==== Sys2Proof/Machine/Alu.lean ====
section
/-!
DEFINITION. Register and arithmetic instructions: 6XNN, 7XNN, 8XY0 to 8XYE, CXNN (spec file 43_register_alu.md).
Operands are read from the state before any write (R11); the order of the two writes is the spec's (R170).
-/

namespace Sys2Proof.Machine

/-- LD VX, NN (R161). -/
def execLdImm (x : RegIx) (nn : Byte) (s : State) : Result := .next (s.setReg x nn)

/-- ADD VX, NN: modulo 256, no flag (R162). -/
def execAddImm (x : RegIx) (nn : Byte) (s : State) : Result := .next (s.setReg x (s.reg x + nn))

/-- LD VX, VY (R163). -/
def execLdReg (x y : RegIx) (s : State) : Result := .next (s.setReg x (s.reg y))

/-- OR VX, VY: VF is not written (R164, R165). -/
def execOrReg (x y : RegIx) (s : State) : Result := .next (s.setReg x (s.reg x ||| s.reg y))

/-- AND VX, VY: VF is not written (R164, R166). -/
def execAndReg (x y : RegIx) (s : State) : Result := .next (s.setReg x (s.reg x &&& s.reg y))

/-- XOR VX, VY: VF is not written (R164, R167). -/
def execXorReg (x y : RegIx) (s : State) : Result := .next (s.setReg x (s.reg x ^^^ s.reg y))

/-- ADD VX, VY: VX, then VF := carry (R168, R170). -/
def execAddReg (x y : RegIx) (s : State) : Result :=
  .next ((s.setReg x (s.reg x + s.reg y)).setVf (carryFlag (s.reg x) (s.reg y)))

/-- SUB VX, VY: VX, then VF := no borrow (R169, R170). -/
def execSub (x y : RegIx) (s : State) : Result :=
  .next ((s.setReg x (s.reg x - s.reg y)).setVf (noBorrowFlag (s.reg x) (s.reg y)))

/-- SHR VX: VF := the bit shifted out, then VX; Y is not read (R170, R171). -/
def execShr (x _y : RegIx) (s : State) : Result :=
  .next ((s.setVf (shrFlag (s.reg x))).setReg x (s.reg x >>> 1))

/-- SUBN VX, VY: VX := VY - VX, then VF := no borrow (R170, R172). -/
def execSubn (x y : RegIx) (s : State) : Result :=
  .next ((s.setReg x (s.reg y - s.reg x)).setVf (noBorrowFlag (s.reg y) (s.reg x)))

/-- SHL VX: VF := the bit shifted out, then VX; Y is not read (R170, R173). -/
def execShl (x _y : RegIx) (s : State) : Result :=
  .next ((s.setVf (shlFlag (s.reg x))).setReg x (s.reg x <<< 1))

/-- RND VX, NN with the draw as an argument (R40, R174): the draw masked with NN. -/
def rndWith (draw : Byte) (x : RegIx) (nn : Byte) (s : State) : Result := .next (s.setReg x (draw &&& nn))

/-- RND VX, NN: a fresh draw masked with NN (R174). -/
def execRnd (x : RegIx) (nn : Byte) (s : State) : Result := rndWith s.draw8.1 x nn s.draw8.2

end Sys2Proof.Machine
end

