-- ==== Sys2Proof/Machine/Control.lean ====
section
/-!
DEFINITION. Control transfer: 0NNN, 00EE, 1NNN, 2NNN, BNNN (spec file 40_control_flow.md).
-/

namespace Sys2Proof.Machine

/-- SYS NNN: no operation (R101). -/
def execSys (_nnn : Imm12) (s : State) : Result := .next s

/-- RET: pop the return address, StackUnderflow when there is none (R102). -/
def execRet (s : State) : Result :=
  match s.pop with
  | none => raiseFault .stackUnderflow .ret none s
  | some (a, t) => .next (t.setPc a)

/-- JP NNN (R103). -/
def execJp (nnn : Imm12) (s : State) : Result := .next (s.setPc (addrOf nnn))

/-- CALL NNN: StackOverflow at the capacity, else push `ia + 2` and jump (R104, R105). The test is R104's equality
(DEDUCED, log entry 10). -/
def execCall (nnn : Imm12) (s : State) : Result :=
  if s.stackCap = some s.stack.length then raiseFault .stackOverflow (.call nnn) none s
  else .next ((s.push s.pc).setPc (addrOf nnn))

/-- JP V0, NNN: always register 0, no reduction modulo 4096 (R108). -/
def execJpV0 (nnn : Imm12) (s : State) : Result := .next (s.setPc (s.jumpOffset nnn))

end Sys2Proof.Machine
end

