-- ==== Sys2Proof/Machine/Display.lean ====
section
/-!
DEFINITION. The display: 00E0 and DXYN (spec file 41_display.md).
-/

namespace Sys2Proof.Machine

/-- CLS: every cell 0 (R121). -/
def execCls (s : State) : Result := .next (s.setFb Framebuffer.clear)

/-- A framebuffer being drawn on, and whether a set pixel has been turned off so far. -/
abbrev Canvas := Framebuffer × Bool

/-- One set sprite bit at cell `j`: the collision test, then `fb[j] <- fb[j] ^ 1` (R122). -/
def flipCell (c : Canvas) (j : CellIx) : Canvas := (c.1.flip j, c.2 || c.1.cell j)

/-- One sprite row: bit `7 - c` of the byte is column offset `c` (R120, R122). -/
def drawRow (x0 y : Nat) (row : Byte) (canvas : Canvas) : Canvas :=
  (List.range 8).foldl (fun cv c => if row.getLsbD (7 - c) then flipCell cv (cellIndex (x0 + c) y) else cv) canvas

/-- The sprite rows from row `y` on, each byte one row further down (R122). -/
def drawRows (x0 y : Nat) : List Byte → Canvas → Canvas
  | [], cv => cv
  | row :: rows, cv => drawRows x0 (y + 1) rows (drawRow x0 y row cv)

/-- The canvas after drawing a sprite at the start position `(V[X] mod 64, V[Y] mod 64)` (R122, R123). -/
def State.drawn (s : State) (x y : RegIx) (n : Nibble) : Canvas :=
  drawRows ((s.reg x).toNat % 64) ((s.reg y).toNat % 64) (readBlock s.mem s.i.toNat n.toNat) (s.fb, false)

/-- DRW VX, VY, N (R122): coordinates and sprite bytes are read first (R11), the range is checked before any write,
VF ends as the collision. -/
def execDrw (x y : RegIx) (n : Nibble) (s : State) : Result :=
  withRange (.drw x y n) s.i.toNat n.toNat s
    ((s.setFb (s.drawn x y n).1).setVf (flagByte (s.drawn x y n).2))

end Sys2Proof.Machine
end

