-- ==== Sys2Proof/Machine/IndexMem.lean ====
section
/-!
DEFINITION. The index register and memory: ANNN, FX1E, FX29, FX33, FX55, FX65 (spec file 44_index_memory.md).
-/

namespace Sys2Proof.Machine

/-- LD I, NNN (R190). -/
def execLdI (nnn : Imm12) (s : State) : Result := .next (s.setI (addrOf nnn))

/-- ADD I, VX: modulo 2^16, no flag (R191, R195). -/
def execAddIVx (x : RegIx) (s : State) : Result := .next (s.advanceI (s.reg16 x))

/-- LD F, VX: the glyph address (R192). -/
def execLdFVx (x : RegIx) (s : State) : Result := .next (s.setI (s.glyphAddr x))

/-- LD B, VX: three decimal digits at I, I+1, I+2; I is not changed (R193, R194). -/
def execLdBVx (x : RegIx) (s : State) : Result :=
  withRange (.ldBVx x) s.i.toNat 3 s (s.setMem (writeBlock s.mem s.i.toNat (bcdDigits (s.reg x))))

/-- LD [I], VX: store V0..VX, then I advances by X + 1 (R194, R196). -/
def execLdMiVx (x : RegIx) (s : State) : Result :=
  withRange (.ldMiVx x) s.i.toNat (x.val + 1) s
    ((s.setMem (writeBlock s.mem s.i.toNat (s.regBytes x))).advanceI (BitVec.ofNat 16 (x.val + 1)))

/-- LD VX, [I]: load V0..VX, then I advances by X + 1 (R194, R197). -/
def execLdVxMi (x : RegIx) (s : State) : Result :=
  withRange (.ldVxMi x) s.i.toNat (x.val + 1) s
    ((s.loadRegs s.i.toNat (regsUpTo x)).advanceI (BitVec.ofNat 16 (x.val + 1)))

end Sys2Proof.Machine
end

