-- ==== Sys2Proof/Machine/Skips.lean ====
section
/-!
DEFINITION. The conditional skips: 3XNN, 4XNN, 5XY0, 9XY0, EX9E, EXA1 (spec file 42_skips.md).
-/

namespace Sys2Proof.Machine

/-- SE VX, NN (R141). -/
def execSeImm (x : RegIx) (nn : Byte) (s : State) : Result := .next (s.skipIf (s.reg x == nn))

/-- SNE VX, NN (R142). -/
def execSneImm (x : RegIx) (nn : Byte) (s : State) : Result := .next (s.skipIf (s.reg x != nn))

/-- SE VX, VY (R143). -/
def execSeReg (x y : RegIx) (s : State) : Result := .next (s.skipIf (s.reg x == s.reg y))

/-- SNE VX, VY (R144). -/
def execSneReg (x y : RegIx) (s : State) : Result := .next (s.skipIf (s.reg x != s.reg y))

/-- A skip on the key VX names: KeyIndexOutOfRange for 16 and above (R147). -/
def skipOnKey (i : Instr) (x : RegIx) (down : Bool) (s : State) : Result :=
  match keyIndex (s.reg x) with
  | none => raiseFault .keyIndexOutOfRange i (some (s.reg x).toNat) s
  | some k => .next (s.skipIf (s.keyDown k == down))

/-- SKP VX (R145). -/
def execSkp (x : RegIx) (s : State) : Result := skipOnKey (.skp x) x true s

/-- SKNP VX (R146). -/
def execSknp (x : RegIx) (s : State) : Result := skipOnKey (.sknp x) x false s

end Sys2Proof.Machine
end

