-- ==== Sys2Proof/Machine/TimersKeys.lean ====
section
/-!
DEFINITION. Timers and the key wait: FX07, FX0A, FX15, FX18 (spec file 45_timers_keypad.md).
-/

namespace Sys2Proof.Machine

/-- LD VX, DT (R210). -/
def execLdVxDt (x : RegIx) (s : State) : Result := .next (s.setReg x s.dt)

/-- LD VX, K: the highest pressed key, or pc back to `ia` so that the next cycle runs it again (R211, R212). -/
def execLdVxK (x : RegIx) (s : State) : Result :=
  match s.highestKey with
  | none => .next (s.setPc (s.pc - 2#16))
  | some k => .next (s.setReg x (BitVec.ofNat 8 k.val))

/-- LD DT, VX (R213). -/
def execLdDtVx (x : RegIx) (s : State) : Result := .next (s.setDt (s.reg x))

/-- LD ST, VX (R214). -/
def execLdStVx (x : RegIx) (s : State) : Result := .next (s.setSt (s.reg x))

end Sys2Proof.Machine
end

