-- ==== Sys2Proof/Machine/Fetch.lean ====
section
/-!
DEFINITION. The fetch unit, what a DecodeError word does and the cycle (spec rules R70 to R74, R80 of 30_encoding.md,
R235 of 60_exceptions.md), and placing a word where the next fetch reads it.
-/

namespace Sys2Proof.Machine

/-- The two reads, high byte first, both addressed from the pc at the start of the cycle (R70, R71): the word, or
the address that is out of range (R73). -/
def fetch (s : State) : Except Nat Word :=
  match memRead s.mem s.pc.toNat with
  | .error a => .error a
  | .ok hi =>
    match memRead s.mem (s.pc.toNat + 1) with
    | .error a => .error a
    | .ok lo => .ok (wordOfBytes hi lo)

/-- A DecodeError word: no effect but the fetch's advance, whose state this gets (R80, R237). -/
def decodeErrorCycle (s : State) : Result := .next s

/-- One cycle of the Cycle Driver (R70) with `Execute` (R87) as an argument: fetch, advance, decode, execute; none from a
halted core (R235). It decrements no timer and polls no input. -/
def cycleBy (execute : Instr → State → Result) (s : State) : Result :=
  match s.fault with
  | some f => .fault (.halted f)
  | none =>
    match fetch s with
    | .error a => fetchFault a s
    | .ok w =>
      match decodeWord w with
      | .error _ => decodeErrorCycle s.advance
      | .ok i => execute i s.advance

/-- Stores the bytes of a word at pc and pc + 1. -/
def placeWord (s : State) (w : Word) : State := s.setMem (writeBlock s.mem s.pc.toNat (bytesOfWord w))

end Sys2Proof.Machine
end

