-- ==== Sys2Proof/Machine/Step.lean ====
section
/-!
DEFINITION. The step of the machine: the cycle of spec rule R70 (30_encoding.md) on `exec`.
-/

namespace Sys2Proof.Machine

/-- One cycle of the Cycle Driver (R70), `Execute` being `exec` (R87). -/
def step (s : State) : Host.Outcome State Fault Refusal := cycleBy exec s

/-- The state with the instruction whose bits are `w` stored at pc, where the next fetch reads it. -/
def State.withFetchWord (s : State) (nbits w : Nat) : State := placeWord s (tableWord nbits w)

end Sys2Proof.Machine
end

