-- ==== Sys2Proof/Machine/HostSteps.lean ====
section
/-!
DEFINITION. The host's moves between cycles and the outputs it reads (spec rules R18, R19 and R243 to R252, R260
to R265): load, reset, key_in, timer_tick, and the output ports as functions of the state.
-/

namespace Sys2Proof.Machine

/-! ### Load and reset -/

/-- Why `load` gives no machine (R238, R261). -/
inductive LoadError where
  /-- The image is absent or unreadable. -/
  | absent
  /-- The image is longer than 4096 - 0x200 bytes. -/
  | tooLong (len : Nat)
  deriving DecidableEq, Repr

/-- Every piece of state but memory at its reset value (R39): what `load` and `reset` share. The draws go on from
where they are, so that later ones are fresh (R265; DESIGN CHOICE, log entry 3), and the parameter P_STACK_CAPACITY stays
(log entry 4). -/
def State.zeroed (s : State) (m : Memory) : State :=
  { State.reset with mem := m, draws := s.draws, stackCap := s.stackCap }

/-- FONT at 0x000..0x04F, the image at 0x200.., zero elsewhere (R260): the empty list already reads as zero outside
the font, whose 80 bytes are all written here. -/
def loadedMemory (font : Config.Font) (image : List Byte) : Memory :=
  writeBlock (writeBlock [] 0 font.toList) 0x200 image

/-- `load(image)` (R260, R261): the fresh machine, or the LoadError that leaves none. An image of length 0 is
accepted (decision D31). `none` is an image absent or unreadable. -/
def hostLoad (font : Config.Font) (image : Option (List Byte)) (s : State) : Except LoadError State :=
  match image with
  | none => .error .absent
  | some bytes =>
    if 3584 < bytes.length then .error (.tooLong bytes.length)
    else .ok (s.zeroed (loadedMemory font bytes))

/-- `reset` (R263): everything zeroed but memory, the latched fault cleared. -/
def hostReset (s : State) : State := s.zeroed s.mem

/-! ### Keypad and timers -/

/-- `key_in(k16)`: overwrites all 16 keys (R245). -/
def keyIn (k16 : Vector Bool 16) (s : State) : State := { s with key := k16 }

/-- One timer: down by one, never below 0 (R243). -/
def tick (b : Byte) : Byte := if 0 < b.toNat then b - 1#8 else b

/-- `timer_tick` (R243): whatever the core's state, halted or waiting included. -/
def timerTick (s : State) : State := { s with dt := tick s.dt, st := tick s.st }

/-! ### Output ports -/

/-- `sound_on`: ST is not 0 (R244). -/
def soundOn (s : State) : Bool := s.st != 0#8

/-- `fb_out` (R247). -/
def fbOut (s : State) : Framebuffer := s.fb

/-- `dt_out` and `st_out` (R247). -/
def timersOut (s : State) : Byte × Byte := (s.dt, s.st)

/-- `fault`: the latched record (R35, R232). -/
def faultOut (s : State) : Option FaultRecord := s.fault

/-- The cause code on the `fault` port, 0 for none (R18, R231). -/
def faultCode (s : State) : Byte :=
  match s.fault with
  | none => 0#8
  | some f => f.cause.code

/-- `decode_error(w, ia)`: the event the cycle from this state reports, none where it reports none (R18, R80). An
output, not state (R20, decision D23; DESIGN CHOICE, log entry 6). -/
def decodeErrorOut (s : State) : Option (Word × Word) :=
  match s.fault with
  | some _ => none
  | none =>
    match fetch s with
    | .error _ => none
    | .ok w =>
      match decodeWord w with
      | .error _ => some (w, s.pc)
      | .ok _ => none

/-! ### Interleaving -/

/-- What can happen next: a cycle or a host step, each atomic, in any order (R19, R246, R252). -/
inductive Move where
  | cycle
  | load (font : Config.Font) (image : Option (List Byte))
  | reset
  | keyIn (k16 : Vector Bool 16)
  | timerTick
  deriving DecidableEq, Repr

/-- The state after a move; none where there is no machine to go on with: a cycle of a halted core (R235), a failed
load (R261). -/
def move (m : Move) (s : State) : Option State :=
  match m with
  | .cycle =>
    match step s with
    | .next t => some t
    | .fault _ => none
    | .refused _ => none
  | .load font image =>
    match hostLoad font image s with
    | .ok t => some t
    | .error _ => none
  | .reset => some (hostReset s)
  | .keyIn k16 => some (Sys2Proof.Machine.keyIn k16 s)
  | .timerTick => some (Sys2Proof.Machine.timerTick s)

/-- The state after a sequence of moves, the interleaving of R246. -/
def moves : List Move → State → Option State
  | [], s => some s
  | m :: ms, s =>
    match move m s with
    | none => none
    | some t => moves ms t

end Sys2Proof.Machine
end

