-- ==== Sys2Proof/Safety.lean ====
section
/-!
DEFINITION. What a run may be (spec rule R251 of 60_exceptions.md), the invariant of the core (R27, R29, R105, R231
to R233), and the words in which frames are stated.
-/

namespace Sys2Proof.Machine

/-! ### The condition of a run (R251) -/

/-- A state's condition (R251). -/
inductive RunCondition where
  /-- A fault is latched: a failed end. -/
  | faulted
  /-- No fault, and the word at pc is a jump to pc itself: the successful end. -/
  | idle
  /-- Any other state. -/
  | running
  deriving DecidableEq, Repr

/-- The word at pc is `0x1NNN` with `NNN = pc` (R251 b). -/
def State.atSelfJump (s : State) : Bool :=
  match fetch s with
  | .error _ => false
  | .ok w => w == 0x1000#16 ||| s.pc && decide (s.pc.toNat < 4096)

/-- Which of R251's three conditions a state is in. -/
def State.condition (s : State) : RunCondition :=
  match s.fault with
  | some _ => .faulted
  | none => if s.atSelfJump then .idle else .running

/-- Safe: no fault is latched, so the core has a cycle (R235, R251). -/
def State.Safe (s : State) : Prop := s.fault = none

/-! ### The invariant -/

/-- The record is one that the `raise`s of R231 make: the word and the `info` fit the cause (R231, R233). -/
def FaultRecord.Consistent (f : FaultRecord) : Prop :=
  match f.cause with
  | .stackUnderflow => f.word = some 0x00EE#16 ∧ f.info = none
  | .stackOverflow => (∃ w, f.word = some w ∧ w &&& 0xF000#16 = 0x2000#16) ∧ f.info = none
  | .memoryOutOfRange => ∃ a, f.info = some a ∧ 4096 ≤ a
  | .keyIndexOutOfRange => ∃ k, f.info = some k ∧ 16 ≤ k ∧ k < 256

/-- What every cycle keeps: memory in canonical form, pc in the range R27 derives, saved addresses at most 0x1000
(R27), the stack within P_STACK_CAPACITY (R29, R105), a latched fault consistent (R231, R233). -/
structure State.Inv (s : State) : Prop where
  memWf : s.mem.wf = true
  pcRange : s.pc.toNat ≤ 0x10FE
  savedRange : ∀ a ∈ s.stack, a.toNat ≤ 0x1000
  withinCap : ∀ c, s.stackCap = some c → s.stack.length ≤ c
  faultOk : ∀ f, s.fault = some f → f.Consistent

/-! ### Words for frames -/

/-- Every register but those listed is unchanged. -/
def SameRegsBut (xs : List RegIx) (s t : State) : Prop := ∀ r, r ∉ xs → t.reg r = s.reg r

/-- Every byte of memory is unchanged. -/
def SameMem (s t : State) : Prop := ∀ a, t.mem.read a = s.mem.read a

/-- Every byte of memory outside the `n` bytes from `base` on is unchanged. -/
def SameMemOutside (base n : Nat) (s t : State) : Prop :=
  ∀ a, ¬ (base ≤ a ∧ a < base + n) → t.mem.read a = s.mem.read a

/-- The call stack and its bound are unchanged. -/
def SameStack (s t : State) : Prop := t.stack = s.stack ∧ t.stackCap = s.stackCap

/-- Both timers are unchanged. -/
def SameTimers (s t : State) : Prop := t.dt = s.dt ∧ t.st = s.st

/-- The keypad and the latched fault are unchanged. -/
def SameInputs (s t : State) : Prop := t.key = s.key ∧ t.fault = s.fault

/-- Every framebuffer cell is unchanged. -/
def SameFb (s t : State) : Prop := ∀ j, t.fbCell j = s.fbCell j

/-- What most instructions never touch: stack, timers, keypad, latched fault, framebuffer, draws. -/
def SameRest (s t : State) : Prop :=
  SameStack s t ∧ SameTimers s t ∧ SameInputs s t ∧ SameFb s t ∧ t.draws = s.draws

/-- Only the listed registers have changed; pc stays `ia + 2`. -/
def OnlyRegs (xs : List RegIx) (s t : State) : Prop :=
  SameRegsBut xs s t ∧ t.i = s.i ∧ t.pc = s.pc ∧ SameMem s t ∧ SameRest s t

/-- Only pc has changed. -/
def OnlyPc (s t : State) : Prop := SameRegsBut [] s t ∧ t.i = s.i ∧ SameMem s t ∧ SameRest s t

/-- Only I has changed; pc stays `ia + 2`. -/
def OnlyI (s t : State) : Prop := SameRegsBut [] s t ∧ t.pc = s.pc ∧ SameMem s t ∧ SameRest s t

/-! ### Sprites and tables -/

/-- Cell `j` is one the sprite of DXYN turns over: it is the cell of a row `r` below N and a column offset `c` below 8
whose sprite bit, bit `7 - c` of the byte at `I + r`, is 1 (R120, R122, R124). -/
def SpriteSets (s : State) (x y : RegIx) (n : Nibble) (j : CellIx) : Prop :=
  ∃ r c : Nat, r < n.toNat ∧ c < 8 ∧ (s.mem.read (s.i.toNat + r)).getLsbD (7 - c) = true ∧
    j.val = ((s.reg y).toNat + r) % 32 * 64 + ((s.reg x).toNat + c) % 64

/-- The registers an instruction may write: the `writes` column of R22. -/
def regWrites : Instr → List RegIx
  | .sys _ | .cls | .ret | .jp _ | .call _ | .ldI _ | .jpV0 _ => []
  | .seImm _ _ | .sneImm _ _ | .seReg _ _ | .sneReg _ _ | .skp _ | .sknp _ => []
  | .ldImm x _ | .addImm x _ | .ldReg x _ | .orReg x _ | .andReg x _ | .xorReg x _ | .rnd x _ => [x]
  | .addReg x _ | .sub x _ | .shr x _ | .subn x _ | .shl x _ => [x, vf]
  | .drw _ _ _ => [vf]
  | .ldVxDt x | .ldVxK x => [x]
  | .ldDtVx _ | .ldStVx _ | .addIVx _ | .ldFVx _ | .ldBVx _ | .ldMiVx _ => []
  | .ldVxMi x => (List.finRange 16).filter (fun r => r.val ≤ x.val)

/-- The pc an instruction fetched at `ia` leaves when it does not fault, read from the state before the cycle:
R26's table. -/
def finalPc (i : Instr) (s : State) : Word :=
  let skip (c : Bool) : Word := if c then s.pc + 4#16 else s.pc + 2#16
  match i with
  | .jp nnn | .call nnn => BitVec.ofNat 16 nnn.toNat
  | .ret => s.stack.getLastD 0#16
  | .jpV0 nnn => BitVec.ofNat 16 ((s.reg 0).toNat + nnn.toNat)
  | .seImm x nn => skip (decide (s.reg x = nn))
  | .sneImm x nn => skip (decide (s.reg x ≠ nn))
  | .seReg x y => skip (decide (s.reg x = s.reg y))
  | .sneReg x y => skip (decide (s.reg x ≠ s.reg y))
  | .skp x => skip (decide (∃ k, s.keyDown k = true ∧ k.val = (s.reg x).toNat))
  | .sknp x => skip (decide (¬ ∃ k, s.keyDown k = true ∧ k.val = (s.reg x).toNat))
  | .ldVxK _ => if ∃ k, s.keyDown k = true then s.pc + 2#16 else s.pc
  | _ => s.pc + 2#16

/-- A fault is raised in execution: the record is latched with `ia`, and nothing else has changed (R232 to R234). -/
def Faults (i : Instr) (s : State) (cause : FaultCause) (w : Word) (info : Option Nat) : Prop :=
  exec i s = .next { s with fault := some { cause := cause, ia := s.pc - 2#16, word := some w, info := info } }

/-- Every word with these fixed bits decodes to this instruction (the `match` and `mask` columns of R82). -/
def DecodesAs (mask pattern : Word) (f : Word → Instr) : Prop :=
  ∀ w, w &&& mask = pattern → decodeWord w = .ok (f w)

/-- X of a word, as arithmetic: bits 11..8 (R12). -/
def nibbleX (w : Word) : RegIx := ⟨w.toNat / 256 % 16, by omega⟩

/-- Y of a word, as arithmetic: bits 7..4 (R12). -/
def nibbleY (w : Word) : RegIx := ⟨w.toNat / 16 % 16, by omega⟩

/-- N of a word, as arithmetic: bits 3..0 (R12). -/
def lowNibble (w : Word) : Nibble := BitVec.ofNat 4 (w.toNat % 16)

/-- NN of a word, as arithmetic: bits 7..0 (R12). -/
def lowByte (w : Word) : Byte := BitVec.ofNat 8 (w.toNat % 256)

/-- NNN of a word, as arithmetic: bits 11..0 (R12). -/
def lowAddr (w : Word) : Imm12 := BitVec.ofNat 12 (w.toNat % 4096)

end Sys2Proof.Machine
end

