-- ==== Sys2Proof/Certificates/Slice0/Obligations.lean ====
section
/-!
DEFINITION. The statements for the provers, each read from the numbered rules of spec/. In every statement about
`exec` the state `s` is the one the fetch left, so `s.pc` is `ia + 2` (R13, R25). "Decision D<n>" marks a clause whose
rule gives it as the spec's own choice (92_eei_decisions.md); a statement of something the spec marks "derived" says so.
-/

open Sys2Proof Sys2Proof.Machine

/-! ### Control transfer (40_control_flow.md) -/

/-- R101. Every word 0x0NNN but 0x00E0 and 0x00EE is SYS, and SYS changes nothing. -/
def Obligations.SysIsNoOperation : Prop :=
  (∀ w : Word, w &&& 0xF000#16 = 0x0000#16 → w ≠ 0x00E0#16 → w ≠ 0x00EE#16 →
    decodeWord w = .ok (.sys (lowAddr w))) ∧
  ∀ nnn s, exec (.sys nnn) s = .next s

/-- R102. RET pops the return address into pc, and on an empty stack raises StackUnderflow; the record it latches is
decision D7, that nothing else changes decision D8. -/
def Obligations.RetPopsReturnAddress : Prop :=
  DecodesAs 0xFFFF#16 0x00EE#16 (fun _ => .ret) ∧
  (∀ s rest a, s.stack = rest ++ [a] → ∃ t, exec .ret s = .next t ∧ t.pc = a ∧ t.stack = rest ∧
    SameRegsBut [] s t ∧ t.i = s.i ∧ SameMem s t ∧ t.stackCap = s.stackCap ∧ SameTimers s t ∧ SameInputs s t ∧
    SameFb s t ∧ t.draws = s.draws) ∧
  ∀ s, s.stack = [] → Faults .ret s .stackUnderflow 0x00EE#16 none

/-- R103. JP sets pc to NNN and changes nothing else. -/
def Obligations.JpSetsPc : Prop :=
  DecodesAs 0xF000#16 0x1000#16 (fun w => .jp (lowAddr w)) ∧
  ∀ nnn s, ∃ t, exec (.jp nnn) s = .next t ∧ t.pc.toNat = nnn.toNat ∧ OnlyPc s t

/-- R104. CALL pushes pc and jumps, and at the capacity raises StackOverflow (decision D6). -/
def Obligations.CallPushesReturnAddress : Prop :=
  DecodesAs 0xF000#16 0x2000#16 (fun w => .call (lowAddr w)) ∧
  (∀ nnn s, s.stackCap ≠ some s.stack.length → ∃ t, exec (.call nnn) s = .next t ∧
    t.stack = s.stack ++ [s.pc] ∧ t.pc.toNat = nnn.toNat ∧ SameRegsBut [] s t ∧ t.i = s.i ∧ SameMem s t ∧
    t.stackCap = s.stackCap ∧ SameTimers s t ∧ SameInputs s t ∧ SameFb s t ∧ t.draws = s.draws) ∧
  ∀ nnn s, s.stackCap = some s.stack.length →
    Faults (.call nnn) s .stackOverflow (BitVec.ofNat 16 (0x2000 + nnn.toNat)) none

/-- R106, a law the spec marks as derived from R102 and R104. A return after a call resumes after the call with the stack
as before it, whatever ran in between, if that left the stack as it found it. -/
def Obligations.ReturnResumesAfterCall : Prop :=
  ∀ nnn s t u, s.stackCap ≠ some s.stack.length → exec (.call nnn) s = .next t → u.stack = t.stack →
    ∃ v, exec .ret u = .next v ∧ v.pc = s.pc ∧ v.stack = s.stack

/-- R108. BNNN jumps to V0 + NNN, exact, whatever bits 11..8 hold. -/
def Obligations.JpV0AddsRegisterZero : Prop :=
  DecodesAs 0xF000#16 0xB000#16 (fun w => .jpV0 (lowAddr w)) ∧
  ∀ nnn s, ∃ t, exec (.jpV0 nnn) s = .next t ∧ t.pc.toNat = (s.reg 0).toNat + nnn.toNat ∧ OnlyPc s t

/-! ### Display (41_display.md) -/

/-- R121. CLS clears every cell and nothing else. -/
def Obligations.ClsClearsFramebuffer : Prop :=
  DecodesAs 0xFFFF#16 0x00E0#16 (fun _ => .cls) ∧
  ∀ s, ∃ t, exec .cls s = .next t ∧ (∀ j, t.fbCell j = false) ∧ SameRegsBut [] s t ∧ t.i = s.i ∧ t.pc = s.pc ∧
    SameMem s t ∧ SameStack s t ∧ SameTimers s t ∧ SameInputs s t ∧ t.draws = s.draws

/-- R122. DRW turns over exactly the cells whose sprite bit is 1, VF says whether one of them was set (the collision law
R124), and a range past memory faults with nothing drawn (decisions D3, D8). The coordinates are those before VF is
written, X = F and Y = F included (decision D13). -/
def Obligations.DrwXorsSprite : Prop :=
  DecodesAs 0xF000#16 0xD000#16 (fun w => .drw (nibbleX w) (nibbleY w) (lowNibble w)) ∧
  (∀ x y n s, (n.toNat = 0 ∨ s.i.toNat + n.toNat ≤ 4096) → ∃ t, exec (.drw x y n) s = .next t ∧
    (∀ j, SpriteSets s x y n j → t.fbCell j = !s.fbCell j) ∧
    (∀ j, ¬ SpriteSets s x y n j → t.fbCell j = s.fbCell j) ∧
    ((∃ j, SpriteSets s x y n j ∧ s.fbCell j = true) → t.reg vf = 1#8) ∧
    ((¬ ∃ j, SpriteSets s x y n j ∧ s.fbCell j = true) → t.reg vf = 0#8) ∧
    SameRegsBut [vf] s t ∧ t.i = s.i ∧ t.pc = s.pc ∧ SameMem s t ∧ SameStack s t ∧ SameTimers s t ∧
    SameInputs s t ∧ t.draws = s.draws) ∧
  ∀ x y n s, 0 < n.toNat → 4096 ≤ s.i.toNat + n.toNat - 1 →
    Faults (.drw x y n) s .memoryOutOfRange (BitVec.ofNat 16 (0xD000 + 256 * x.val + 16 * y.val + n.toNat))
      (some (s.i.toNat + n.toNat - 1))

/-- R123, an equality the spec marks as derived from R122. Reducing the start row modulo 64 or modulo 32 draws the same
cells. -/
def Obligations.StartRowModulusIsImmaterial : Prop :=
  ∀ (x0 y : Nat) (rows : List Byte) (c : Canvas), drawRows x0 (y % 64) rows c = drawRows x0 (y % 32) rows c

/-- R125, whose precise form the spec marks as derived from R122 and R124. Drawing the same sprite twice restores the
framebuffer, and the second draw reports a collision exactly when the first turned a cell on. Of memory only the sprite's
own bytes need be unchanged between the two. -/
def Obligations.DrawingTwiceRestores : Prop :=
  ∀ x y n s t u, x ≠ vf → y ≠ vf → (n.toNat = 0 ∨ s.i.toNat + n.toNat ≤ 4096) →
    exec (.drw x y n) s = .next t →
    (∀ a, s.i.toNat ≤ a → a < s.i.toNat + n.toNat → u.mem.read a = t.mem.read a) → u.i = t.i → u.fb = t.fb → u.reg x = t.reg x →
    u.reg y = t.reg y → ∃ v, exec (.drw x y n) u = .next v ∧ v.fb = s.fb ∧
      ((∃ j, SpriteSets s x y n j ∧ s.fbCell j = false) → v.reg vf = 1#8) ∧
      ((¬ ∃ j, SpriteSets s x y n j ∧ s.fbCell j = false) → v.reg vf = 0#8)

/-! ### Skips (42_skips.md) -/

/-- R141, R142. SE VX, NN skips when VX = NN and SNE VX, NN when it does not. -/
def Obligations.ImmediateSkips : Prop :=
  DecodesAs 0xF000#16 0x3000#16 (fun w => .seImm (nibbleX w) (lowByte w)) ∧
  DecodesAs 0xF000#16 0x4000#16 (fun w => .sneImm (nibbleX w) (lowByte w)) ∧
  ∀ x nn s,
    (∃ t, exec (.seImm x nn) s = .next t ∧ (s.reg x = nn → t.pc = s.pc + 2#16) ∧
      (s.reg x ≠ nn → t.pc = s.pc) ∧ OnlyPc s t) ∧
    ∃ t, exec (.sneImm x nn) s = .next t ∧ (s.reg x ≠ nn → t.pc = s.pc + 2#16) ∧
      (s.reg x = nn → t.pc = s.pc) ∧ OnlyPc s t

/-- R143, R144. SE VX, VY skips when the registers are equal and SNE VX, VY when they differ; with N not 0 the word
is a DecodeError (decision D2). -/
def Obligations.RegisterSkips : Prop :=
  DecodesAs 0xF00F#16 0x5000#16 (fun w => .seReg (nibbleX w) (nibbleY w)) ∧
  DecodesAs 0xF00F#16 0x9000#16 (fun w => .sneReg (nibbleX w) (nibbleY w)) ∧
  (∀ w : Word, (w &&& 0xF000#16 = 0x5000#16 ∨ w &&& 0xF000#16 = 0x9000#16) → w &&& 0x000F#16 ≠ 0#16 →
    decodeWord w = .error (.noOperation w)) ∧
  ∀ x y s,
    (∃ t, exec (.seReg x y) s = .next t ∧ (s.reg x = s.reg y → t.pc = s.pc + 2#16) ∧
      (s.reg x ≠ s.reg y → t.pc = s.pc) ∧ OnlyPc s t) ∧
    ∃ t, exec (.sneReg x y) s = .next t ∧ (s.reg x ≠ s.reg y → t.pc = s.pc + 2#16) ∧
      (s.reg x = s.reg y → t.pc = s.pc) ∧ OnlyPc s t

/-- R145, R146, R147. The key skips test the key VX names; an index of 16 or more raises KeyIndexOutOfRange and is not
reduced to its low nibble (decision D9). -/
def Obligations.KeySkips : Prop :=
  DecodesAs 0xF0FF#16 0xE09E#16 (fun w => .skp (nibbleX w)) ∧
  DecodesAs 0xF0FF#16 0xE0A1#16 (fun w => .sknp (nibbleX w)) ∧
  (∀ x s (k : RegIx), (s.reg x).toNat = k.val →
    (∃ t, exec (.skp x) s = .next t ∧ (s.keyDown k = true → t.pc = s.pc + 2#16) ∧
      (s.keyDown k = false → t.pc = s.pc) ∧ OnlyPc s t) ∧
    ∃ t, exec (.sknp x) s = .next t ∧ (s.keyDown k = false → t.pc = s.pc + 2#16) ∧
      (s.keyDown k = true → t.pc = s.pc) ∧ OnlyPc s t) ∧
  ∀ x s, 16 ≤ (s.reg x).toNat →
    Faults (.skp x) s .keyIndexOutOfRange (BitVec.ofNat 16 (0xE09E + 256 * x.val)) (some (s.reg x).toNat) ∧
    Faults (.sknp x) s .keyIndexOutOfRange (BitVec.ofNat 16 (0xE0A1 + 256 * x.val)) (some (s.reg x).toNat)

/-! ### Registers and arithmetic (43_register_alu.md) -/

/-- R161. LD VX, NN. -/
def Obligations.LdImmediate : Prop :=
  DecodesAs 0xF000#16 0x6000#16 (fun w => .ldImm (nibbleX w) (lowByte w)) ∧
  ∀ x nn s, ∃ t, exec (.ldImm x nn) s = .next t ∧ t.reg x = nn ∧ OnlyRegs [x] s t

/-- R162. ADD VX, NN wraps modulo 256 and leaves VF alone. -/
def Obligations.AddImmediateWraps : Prop :=
  DecodesAs 0xF000#16 0x7000#16 (fun w => .addImm (nibbleX w) (lowByte w)) ∧
  ∀ x nn s, ∃ t, exec (.addImm x nn) s = .next t ∧
    (t.reg x).toNat = ((s.reg x).toNat + nn.toNat) % 256 ∧ OnlyRegs [x] s t

/-- R163. LD VX, VY. -/
def Obligations.LdRegister : Prop :=
  DecodesAs 0xF00F#16 0x8000#16 (fun w => .ldReg (nibbleX w) (nibbleY w)) ∧
  ∀ x y s, ∃ t, exec (.ldReg x y) s = .next t ∧ t.reg x = s.reg y ∧ OnlyRegs [x] s t

/-- From R164 to R167. OR, AND and XOR write only VX, bit by bit. That VF is not a side effect is what R164 marks as derived
from the effect table, which names a VF write for every operation that makes one. -/
def Obligations.LogicWritesOnlyVx : Prop :=
  DecodesAs 0xF00F#16 0x8001#16 (fun w => .orReg (nibbleX w) (nibbleY w)) ∧
  DecodesAs 0xF00F#16 0x8002#16 (fun w => .andReg (nibbleX w) (nibbleY w)) ∧
  DecodesAs 0xF00F#16 0x8003#16 (fun w => .xorReg (nibbleX w) (nibbleY w)) ∧
  ∀ x y s,
    (∃ t, exec (.orReg x y) s = .next t ∧ OnlyRegs [x] s t ∧
      ∀ k, (t.reg x).getLsbD k = ((s.reg x).getLsbD k || (s.reg y).getLsbD k)) ∧
    (∃ t, exec (.andReg x y) s = .next t ∧ OnlyRegs [x] s t ∧
      ∀ k, (t.reg x).getLsbD k = ((s.reg x).getLsbD k && (s.reg y).getLsbD k)) ∧
    ∃ t, exec (.xorReg x y) s = .next t ∧ OnlyRegs [x] s t ∧
      ∀ k, (t.reg x).getLsbD k = ((s.reg x).getLsbD k ^^ (s.reg y).getLsbD k)

/-- R168. ADD VX, VY: the sum modulo 256, VF := 1 exactly when it exceeds 255; the carry stays when X = F. -/
def Obligations.AddRegisterSetsCarry : Prop :=
  DecodesAs 0xF00F#16 0x8004#16 (fun w => .addReg (nibbleX w) (nibbleY w)) ∧
  ∀ x y s, ∃ t, exec (.addReg x y) s = .next t ∧
    (x ≠ vf → (t.reg x).toNat = ((s.reg x).toNat + (s.reg y).toNat) % 256) ∧
    t.reg vf = (if 255 < (s.reg x).toNat + (s.reg y).toNat then 1#8 else 0#8) ∧ OnlyRegs [x, vf] s t

/-- R169. SUB VX, VY: VX - VY modulo 256, VF := 0 exactly on a borrow; the flag stays when X = F. -/
def Obligations.SubSetsNoBorrow : Prop :=
  DecodesAs 0xF00F#16 0x8005#16 (fun w => .sub (nibbleX w) (nibbleY w)) ∧
  ∀ x y s, ∃ t, exec (.sub x y) s = .next t ∧
    (x ≠ vf → (t.reg x).toNat = ((s.reg x).toNat + 256 - (s.reg y).toNat) % 256) ∧
    t.reg vf = (if (s.reg x).toNat < (s.reg y).toNat then 0#8 else 1#8) ∧ OnlyRegs [x, vf] s t

/-- R172. SUBN VX, VY: VY - VX modulo 256, VF := 0 exactly on a borrow; the flag stays when X = F. -/
def Obligations.SubnSetsNoBorrow : Prop :=
  DecodesAs 0xF00F#16 0x8007#16 (fun w => .subn (nibbleX w) (nibbleY w)) ∧
  ∀ x y s, ∃ t, exec (.subn x y) s = .next t ∧
    (x ≠ vf → (t.reg x).toNat = ((s.reg y).toNat + 256 - (s.reg x).toNat) % 256) ∧
    t.reg vf = (if (s.reg y).toNat < (s.reg x).toNat then 0#8 else 1#8) ∧ OnlyRegs [x, vf] s t

/-- R171. SHR VX: VX div 2, VF := the old bit 0; VY is not read; the shifted value stays when X = F. -/
def Obligations.ShrShiftsInPlace : Prop :=
  DecodesAs 0xF00F#16 0x8006#16 (fun w => .shr (nibbleX w) (nibbleY w)) ∧
  ∀ x y s, ∃ t, exec (.shr x y) s = .next t ∧ (t.reg x).toNat = (s.reg x).toNat / 2 ∧
    (x ≠ vf → (t.reg vf).toNat = (s.reg x).toNat % 2) ∧ OnlyRegs [x, vf] s t

/-- R173. SHL VX: 2·VX modulo 256, VF := the old bit 7; VY is not read; the shifted value stays when X = F. -/
def Obligations.ShlShiftsInPlace : Prop :=
  DecodesAs 0xF00F#16 0x800E#16 (fun w => .shl (nibbleX w) (nibbleY w)) ∧
  ∀ x y s, ∃ t, exec (.shl x y) s = .next t ∧ (t.reg x).toNat = 2 * (s.reg x).toNat % 256 ∧
    (x ≠ vf → (t.reg vf).toNat = (s.reg x).toNat / 128) ∧ OnlyRegs [x, vf] s t

/-- R170. What remains in VF when X = F: the flag after 8FY4, 8FY5, 8FY7, the shifted value after 8FY6, 8FYE
(decision D13). -/
def Obligations.FinalVfOfFlagInstructions : Prop :=
  ∀ y s, ∃ t4 t5 t7 t6 tE, exec (.addReg vf y) s = .next t4 ∧ exec (.sub vf y) s = .next t5 ∧
    exec (.subn vf y) s = .next t7 ∧ exec (.shr vf y) s = .next t6 ∧ exec (.shl vf y) s = .next tE ∧
    (t4.reg vf).toNat = ((s.reg vf).toNat + (s.reg y).toNat) / 256 ∧
    (t5.reg vf).toNat = 1 - ((s.reg y).toNat + 255 - (s.reg vf).toNat) / 256 ∧
    (t7.reg vf).toNat = 1 - ((s.reg vf).toNat + 255 - (s.reg y).toNat) / 256 ∧
    (t6.reg vf).toNat = (s.reg vf).toNat / 2 ∧ (tE.reg vf).toNat = 2 * (s.reg vf).toNat % 256

/-- R174. RND VX, NN: a draw masked with NN, nothing else changed. The draw is the free value `Config.randomByte`, so the
statement holds for every value of it (decision D12); which number the draw has is not part of the rule. -/
def Obligations.RndMasksFreshDraw : Prop :=
  DecodesAs 0xF000#16 0xC000#16 (fun w => .rnd (nibbleX w) (lowByte w)) ∧
  ∀ x nn s, ∃ t, exec (.rnd x nn) s = .next t ∧
    (∀ k, (t.reg x).getLsbD k = ((Config.randomByte s.draws).getLsbD k && nn.getLsbD k)) ∧
    SameRegsBut [x] s t ∧ t.i = s.i ∧ t.pc = s.pc ∧ SameMem s t ∧ SameStack s t ∧
    SameTimers s t ∧ SameInputs s t ∧ SameFb s t

/-- Log entry 3, the model's own counter behind "one fresh draw per execution" (R174): RND takes one draw, every other
instruction none; a cycle takes one exactly when it runs RND; no host move takes one or gives one back, load and reset
included. -/
def Obligations.DrawsAreNeverReused : Prop :=
  (∀ x nn s t, exec (.rnd x nn) s = .next t → t.draws = s.draws + 1) ∧
  (∀ i s t, (∀ x nn, i ≠ .rnd x nn) → exec i s = .next t → t.draws = s.draws) ∧
  (∀ s t w x nn, fetch s = .ok w → decodeWord w = .ok (.rnd x nn) → step s = .next t → t.draws = s.draws + 1) ∧
  (∀ s t, (∀ w x nn, fetch s = .ok w → decodeWord w ≠ .ok (.rnd x nn)) → step s = .next t → t.draws = s.draws) ∧
  ∀ m s t, m ≠ .cycle → move m s = some t → t.draws = s.draws

/-! ### Index register and memory (44_index_memory.md, 20_memory.md) -/

/-- R190. LD I, NNN. -/
def Obligations.LdIndex : Prop :=
  DecodesAs 0xF000#16 0xA000#16 (fun w => .ldI (lowAddr w)) ∧
  ∀ nnn s, ∃ t, exec (.ldI nnn) s = .next t ∧ t.i.toNat = nnn.toNat ∧ OnlyI s t

/-- R191. ADD I, VX modulo 2^16, no flag. -/
def Obligations.AddIndexWraps : Prop :=
  DecodesAs 0xF0FF#16 0xF01E#16 (fun w => .addIVx (nibbleX w)) ∧
  ∀ x s, ∃ t, exec (.addIVx x) s = .next t ∧
    t.i.toNat = (s.i.toNat + (s.reg x).toNat) % 65536 ∧ OnlyI s t

/-- R192. LD F, VX: I := 5·VX, with no mask. -/
def Obligations.LdFontAddress : Prop :=
  DecodesAs 0xF0FF#16 0xF029#16 (fun w => .ldFVx (nibbleX w)) ∧
  ∀ x s, ∃ t, exec (.ldFVx x) s = .next t ∧ t.i.toNat = (s.reg x).toNat * 5 ∧ OnlyI s t

/-- R193. LD B, VX: hundreds, tens and ones at I, I+1, I+2, all other bytes and I unchanged; past memory it faults
(decisions D3, D8). -/
def Obligations.LdBcdStoresDigits : Prop :=
  DecodesAs 0xF0FF#16 0xF033#16 (fun w => .ldBVx (nibbleX w)) ∧
  (∀ x s, s.i.toNat + 2 < 4096 → ∃ t, exec (.ldBVx x) s = .next t ∧
    (t.mem.read s.i.toNat).toNat = (s.reg x).toNat / 100 ∧
    (t.mem.read (s.i.toNat + 1)).toNat = (s.reg x).toNat / 10 % 10 ∧
    (t.mem.read (s.i.toNat + 2)).toNat = (s.reg x).toNat % 10 ∧
    SameMemOutside s.i.toNat 3 s t ∧ SameRegsBut [] s t ∧ t.i = s.i ∧ t.pc = s.pc ∧ SameRest s t) ∧
  ∀ x s, 4096 ≤ s.i.toNat + 2 →
    Faults (.ldBVx x) s .memoryOutOfRange (BitVec.ofNat 16 (0xF033 + 256 * x.val)) (some (s.i.toNat + 2))

/-- R196. LD [I], VX: V0..VX at I.., then I advances by X + 1; past memory it faults and stores nothing
(decisions D3, D8). -/
def Obligations.StoreRegisters : Prop :=
  DecodesAs 0xF0FF#16 0xF055#16 (fun w => .ldMiVx (nibbleX w)) ∧
  (∀ (x : RegIx) s, s.i.toNat + x.val < 4096 → ∃ t, exec (.ldMiVx x) s = .next t ∧
    (∀ k : RegIx, k ≤ x → t.mem.read (s.i.toNat + k.val) = s.reg k) ∧
    SameMemOutside s.i.toNat (x.val + 1) s t ∧ t.i.toNat = (s.i.toNat + x.val + 1) % 65536 ∧
    SameRegsBut [] s t ∧ t.pc = s.pc ∧ SameRest s t) ∧
  ∀ (x : RegIx) s, 4096 ≤ s.i.toNat + x.val →
    Faults (.ldMiVx x) s .memoryOutOfRange (BitVec.ofNat 16 (0xF055 + 256 * x.val)) (some (s.i.toNat + x.val))

/-- R197. LD VX, [I]: V0..VX from I.., registers above X unchanged, then I advances by X + 1; past memory it faults
(decisions D3, D8). -/
def Obligations.LoadRegisters : Prop :=
  DecodesAs 0xF0FF#16 0xF065#16 (fun w => .ldVxMi (nibbleX w)) ∧
  (∀ (x : RegIx) s, s.i.toNat + x.val < 4096 → ∃ t, exec (.ldVxMi x) s = .next t ∧
    (∀ k : RegIx, k ≤ x → t.reg k = s.mem.read (s.i.toNat + k.val)) ∧
    (∀ k : RegIx, x < k → t.reg k = s.reg k) ∧ t.i.toNat = (s.i.toNat + x.val + 1) % 65536 ∧
    t.pc = s.pc ∧ SameMem s t ∧ SameRest s t) ∧
  ∀ (x : RegIx) s, 4096 ≤ s.i.toNat + x.val →
    Faults (.ldVxMi x) s .memoryOutOfRange (BitVec.ofNat 16 (0xF065 + 256 * x.val)) (some (s.i.toNat + x.val))

/-- From R196 and R197. FX55 then FX65 with the same X and the same I brings back the registers it stored. -/
def Obligations.StoreLoadRoundTrip : Prop :=
  ∀ (x : RegIx) s t u, s.i.toNat + x.val < 4096 → exec (.ldMiVx x) s = .next t → u.mem = t.mem → u.i = s.i →
    ∃ v, exec (.ldVxMi x) u = .next v ∧ v.i = t.i ∧ SameMem t v ∧ ∀ k : RegIx, k ≤ x → v.reg k = s.reg k

/-- R62, which the spec marks as derived, and R269. A word of the bytes FX55 or FX33 has just stored is what
the next fetch reads when it stands at the pc: any two neighbouring registers, hundreds and tens, tens and ones. -/
def Obligations.StoreSeenByNextFetch : Prop :=
  (∀ (x : RegIx) (k : Nat) s, s.i.toNat + x.val < 4096 → (h : k + 1 ≤ x.val) → s.pc.toNat = s.i.toNat + k →
    ∃ t w, exec (.ldMiVx x) s = .next t ∧ fetch t = .ok w ∧
      w.toNat = 256 * (s.reg ⟨k, by omega⟩).toNat + (s.reg ⟨k + 1, by omega⟩).toNat) ∧
  (∀ x s, s.i.toNat + 2 < 4096 → s.pc.toNat = s.i.toNat →
    ∃ t w, exec (.ldBVx x) s = .next t ∧ fetch t = .ok w ∧
      w.toNat = 256 * ((s.reg x).toNat / 100) + (s.reg x).toNat / 10 % 10) ∧
  ∀ x s, s.i.toNat + 2 < 4096 → s.pc.toNat = s.i.toNat + 1 →
    ∃ t w, exec (.ldBVx x) s = .next t ∧ fetch t = .ok w ∧
      w.toNat = 256 * ((s.reg x).toNat / 10 % 10) + (s.reg x).toNat % 10

/-! ### Timers and key wait (45_timers_keypad.md) -/

/-- R210. LD VX, DT. -/
def Obligations.ReadDelayTimer : Prop :=
  DecodesAs 0xF0FF#16 0xF007#16 (fun w => .ldVxDt (nibbleX w)) ∧
  ∀ x s, ∃ t, exec (.ldVxDt x) s = .next t ∧ t.reg x = s.dt ∧ OnlyRegs [x] s t

/-- R211, R212. LD VX, K: the highest pressed key (decision D10), or pc back to `ia` with nothing else changed (decision
D11). -/
def Obligations.WaitForKey : Prop :=
  DecodesAs 0xF0FF#16 0xF00A#16 (fun w => .ldVxK (nibbleX w)) ∧
  (∀ x s (k : RegIx), s.keyDown k = true → (∀ j, s.keyDown j = true → j ≤ k) →
    ∃ t, exec (.ldVxK x) s = .next t ∧ (t.reg x).toNat = k.val ∧ OnlyRegs [x] s t) ∧
  ∀ x s, (∀ k, s.keyDown k = false) → exec (.ldVxK x) s = .next { s with pc := s.pc - 2#16 }

/-- R213, R214. LD DT, VX and LD ST, VX. -/
def Obligations.SetTimers : Prop :=
  DecodesAs 0xF0FF#16 0xF015#16 (fun w => .ldDtVx (nibbleX w)) ∧
  DecodesAs 0xF0FF#16 0xF018#16 (fun w => .ldStVx (nibbleX w)) ∧
  ∀ x s,
    (∃ t, exec (.ldDtVx x) s = .next t ∧ t.dt = s.reg x ∧ t.st = s.st ∧ SameRegsBut [] s t ∧ t.i = s.i ∧
      t.pc = s.pc ∧ SameMem s t ∧ SameStack s t ∧ SameInputs s t ∧ SameFb s t ∧ t.draws = s.draws) ∧
    ∃ t, exec (.ldStVx x) s = .next t ∧ t.st = s.reg x ∧ t.dt = s.dt ∧ (soundOn t = true ↔ s.reg x ≠ 0#8) ∧
      SameRegsBut [] s t ∧ t.i = s.i ∧ t.pc = s.pc ∧ SameMem s t ∧ SameStack s t ∧ SameInputs s t ∧ SameFb s t ∧
      t.draws = s.draws

/-! ### The cycle, decoding and encoding (30_encoding.md) -/

/-- R70, R72, R87. When the two bytes at pc decode to an instruction, the cycle is `exec` of it on the state with
pc advanced by 2. -/
def Obligations.StepRunsDecodedInstruction : Prop :=
  ∀ s i, s.fault = none → s.pc.toNat + 1 < 4096 →
    decodeBytes [s.mem.read s.pc.toNat, s.mem.read (s.pc.toNat + 1)] = .ok (i, []) →
    step s = exec i { s with pc := s.pc + 2#16 }

/-- R74 (decision D5), and R71's word. The fetch is `(high << 8) | low` of the bytes at pc and pc + 1,
at any address up to 0xFFE, odd or even. -/
def Obligations.FetchIsBigEndian : Prop :=
  ∀ s, s.pc.toNat ≤ 0xFFE → ∃ w, fetch s = .ok w ∧
    w.toNat = 256 * (s.mem.read s.pc.toNat).toNat + (s.mem.read (s.pc.toNat + 1)).toNat

/-- R73. A fetch that leaves memory latches MemoryOutOfRange with no word, pc not advanced and nothing else
changed (decision D4). -/
def Obligations.FetchPastMemoryFaults : Prop :=
  ∀ s, s.fault = none →
    (4096 ≤ s.pc.toNat →
      step s = .next { s with fault := some ⟨.memoryOutOfRange, s.pc, none, some s.pc.toNat⟩ }) ∧
    (s.pc.toNat = 0xFFF →
      step s = .next { s with fault := some ⟨.memoryOutOfRange, s.pc, none, some 0x1000⟩ })

/-- R80, R237. A DecodeError word is reported, changes only pc, and does not halt (decision D23). -/
def Obligations.DecodeErrorOnlyAdvancesPc : Prop :=
  ∀ s w, s.fault = none → fetch s = .ok w → decodeWord w = .error (.noOperation w) →
    step s = .next { s with pc := s.pc + 2#16 } ∧ decodeErrorOut s = some (w, s.pc)

/-- From R79 (decision D2) and R83. The DecodeError words, exactly; every other word decodes. -/
def Obligations.DecodeErrorWordsExactly : Prop :=
  ∀ w : Word, (decodeWord w = .error (.noOperation w) ↔
    ((w.toNat / 4096 = 5 ∨ w.toNat / 4096 = 9) ∧ w.toNat % 16 ≠ 0) ∨
    (w.toNat / 4096 = 8 ∧ w.toNat % 16 ∈ [0x8, 0x9, 0xA, 0xB, 0xC, 0xD, 0xF]) ∨
    (w.toNat / 4096 = 14 ∧ w.toNat % 256 ∉ [0x9E, 0xA1]) ∨
    (w.toNat / 4096 = 15 ∧ w.toNat % 256 ∉ [0x07, 0x0A, 0x15, 0x18, 0x1E, 0x29, 0x33, 0x55, 0x65])) ∧
    (decodeWord w = .error (.noOperation w) ∨ ∃ i, decodeWord w = .ok i)

/-- Decode and encode agree: every well-formed instruction, every operand. -/
def Obligations.DecodeOfEncode : Prop :=
  ∀ i : Instr, i.WellFormed = true → decodeWord (encode i) = .ok i ∧ decodeBytes (encodeBytes i) = .ok (i, [])

/-- No bit of a word is dropped: what decodes to `i` is the word of `i`, and `i` is well formed. So the `word` of a
fault record is the fetched word (R233). -/
def Obligations.EncodeOfDecode : Prop :=
  ∀ (w : Word) (i : Instr), decodeWord w = .ok i → encode i = w ∧ i.WellFormed = true

/-- Words written out bit by bit from the `encoding` column of the opcode table decode as they should. -/
def Obligations.SampleWordsDecode : Prop :=
  decodeWord 0b0000000100100011#16 = .ok (.sys 0x123#12) ∧ decodeWord 0b0000000011101110#16 = .ok .ret ∧
  decodeWord 0b0011001101000010#16 = .ok (.seImm 3 0x42#8) ∧ decodeWord 0b1000000100100111#16 = .ok (.subn 1 2) ∧
  decodeWord 0b1101000101000101#16 = .ok (.drw 1 4 5#4) ∧ decodeWord 0b1110010110011110#16 = .ok (.skp 5) ∧
  decodeWord 0b1111101000110011#16 = .ok (.ldBVx 10) ∧
  decodeWord 0b1111010000011000#16 = .ok (.ldStVx 4)

/-- R26. The pc at the end of a cycle that does not fault. -/
def Obligations.FinalPcTable : Prop :=
  ∀ s t w, s.fault = none → fetch s = .ok w → step s = .next t → t.fault = none →
    (∀ i, decodeWord w = .ok i → t.pc = finalPc i s) ∧
    (decodeWord w = .error (.noOperation w) → t.pc = s.pc + 2#16)

/-! ### Whole-machine rules -/

/-- From R22 and R24. An instruction changes no register that R22 does not give it to write: VF in particular only where VF is
the destination or the instruction is 8XY4 to 8XYE or DXYN. -/
def Obligations.OnlyListedRegistersWritten : Prop :=
  ∀ i s t, exec i s = .next t → SameRegsBut (regWrites i) s t

/-- From R29 to R32, R36 and R50. The stack, the timers, the keypad, the framebuffer and memory are changed only by the
instructions that own them. -/
def Obligations.OnlyOwnersWriteState : Prop :=
  ∀ i s t, exec i s = .next t →
    t.key = s.key ∧ t.stackCap = s.stackCap ∧
    (i ≠ .ret → (∀ nnn, i ≠ .call nnn) → t.stack = s.stack) ∧
    ((∀ x, i ≠ .ldDtVx x) → t.dt = s.dt) ∧ ((∀ x, i ≠ .ldStVx x) → t.st = s.st) ∧
    (i ≠ .cls → (∀ x y n, i ≠ .drw x y n) → SameFb s t) ∧
    ((∀ x, i ≠ .ldBVx x) → (∀ x, i ≠ .ldMiVx x) → SameMem s t)

/-- From R235 and R241. A core that is not halted always has a cycle, and no instruction is refused or stops. -/
def Obligations.UnhaltedCoreAlwaysSteps : Prop :=
  (∀ i s, ∃ t, exec i s = .next t) ∧ ∀ s, s.fault = none ↔ ∃ t, step s = .next t

/-- R235 (decision D7). A halted core has no cycle, and host steps other than load and reset leave the fault. That the
cycle is answered by the stop `Fault.halted` is the model's form (log entry 5). -/
def Obligations.HaltedCoreHasNoCycle : Prop :=
  ∀ s f, s.fault = some f → step s = .fault (.halted f) ∧ move .cycle s = none ∧
    ∀ m t, move m s = some t → (∀ font image, m ≠ .load font image) → m ≠ .reset → t.fault = some f

/-- R234. Faults are precise: a fetch fault leaves the state as it was, an execution fault as the fetch left it
(decision D8). -/
def Obligations.FaultsArePrecise : Prop :=
  ∀ s t, step s = .next t → t.fault ≠ none →
    (∀ w, fetch s = .ok w → t = { s with pc := s.pc + 2#16, fault := t.fault }) ∧
    (∀ a, fetch s = .error a → t = { s with fault := t.fault })

/-- From R231 and R239. Which instruction raises which fault, when, and with which `info`; no other faults. -/
def Obligations.FaultCauseTable : Prop :=
  ∀ i s t, exec i s = .next t → t.fault ≠ s.fault → ∃ f, t.fault = some f ∧
    ((i = .ret ∧ s.stack = [] ∧ f.cause = .stackUnderflow ∧ f.info = none) ∨
     (∃ nnn, i = .call nnn ∧ s.stackCap = some s.stack.length ∧ f.cause = .stackOverflow ∧ f.info = none) ∨
     (∃ x y n, i = .drw x y n ∧ f.cause = .memoryOutOfRange ∧ f.info = some (s.i.toNat + n.toNat - 1) ∧
       4096 ≤ s.i.toNat + n.toNat - 1) ∨
     (∃ x, i = .ldBVx x ∧ f.cause = .memoryOutOfRange ∧ f.info = some (s.i.toNat + 2) ∧ 4096 ≤ s.i.toNat + 2) ∨
     (∃ x : RegIx, (i = .ldMiVx x ∨ i = .ldVxMi x) ∧ f.cause = .memoryOutOfRange ∧
       f.info = some (s.i.toNat + x.val) ∧ 4096 ≤ s.i.toNat + x.val) ∨
     (∃ x, (i = .skp x ∨ i = .sknp x) ∧ f.cause = .keyIndexOutOfRange ∧ f.info = some (s.reg x).toNat ∧
       16 ≤ (s.reg x).toNat))

/-- From R27 (whose range the spec marks as derived), R29, R105 and R231 to R233. Every cycle keeps the invariant: memory
in canonical form (log entry 12), pc at most 0x10FE, saved addresses at most 0x1000, the stack within its capacity, a
latched record that fits its cause. -/
def Obligations.StepKeepsInvariant : Prop :=
  ∀ s t, s.Inv → step s = .next t → t.Inv

/-- The clauses of `Inv` are those of `StepKeepsInvariant`. Every move keeps them, from every state and for every
P_STACK_CAPACITY: a cycle, a load of any font and image (R260), reset (R263), key_in (R245), timer_tick (R243); so every
sequence of moves, however they interleave (R19, R246), keeps them. -/
def Obligations.MovesKeepInvariant : Prop :=
  (∀ m s t, s.Inv → move m s = some t → t.Inv) ∧ ∀ ms s t, s.Inv → moves ms s = some t → t.Inv

/-- The reset state has the invariant. -/
def Obligations.ResetHasInvariant : Prop := State.reset.Inv

/-! ### Load, reset and the host (60_exceptions.md, 70_reset_and_hazards.md) -/

/-- R260, R261. A load puts FONT and the image in memory and zeroes everything else (decision D17; an image of length
0 included, decision D31); an absent or oversized image gives no machine. -/
def Obligations.LoadInitialisesMachine : Prop :=
  ∀ (font : Config.Font) (s : State),
    (∀ image : List Byte, image.length ≤ 3584 → ∃ t, hostLoad font (some image) s = .ok t ∧
      (∀ a, (h : a < 80) → t.mem.read a = font[a]) ∧
      (∀ a, (h : a < image.length) → t.mem.read (0x200 + a) = image[a]) ∧
      (∀ a, 80 ≤ a → a < 0x200 ∨ 0x200 + image.length ≤ a → t.mem.read a = 0#8) ∧
      (∀ x, t.reg x = 0#8) ∧ t.i = 0#16 ∧ t.pc = 0x200#16 ∧ t.stack = [] ∧ t.dt = 0#8 ∧ t.st = 0#8 ∧
      (∀ k, t.keyDown k = false) ∧ (∀ j, t.fbCell j = false) ∧ t.fault = none) ∧
    (∀ image : List Byte, 3584 < image.length → hostLoad font (some image) s = .error (.tooLong image.length)) ∧
    hostLoad font none s = .error .absent

/-- R263. Reset zeroes everything but memory, keeps every byte of memory (decision D18) and clears the fault. -/
def Obligations.ResetKeepsMemory : Prop :=
  ∀ s, SameMem s (hostReset s) ∧ (∀ x, (hostReset s).reg x = 0#8) ∧ (hostReset s).i = 0#16 ∧
    (hostReset s).pc = 0x200#16 ∧ (hostReset s).stack = [] ∧ (hostReset s).dt = 0#8 ∧ (hostReset s).st = 0#8 ∧
    (∀ k, (hostReset s).keyDown k = false) ∧ (∀ j, (hostReset s).fbCell j = false) ∧
    (hostReset s).fault = none

/-- The model's choice (log entries 1 and 2): `State.reset` is, in every field, the state a load of a zero-length image
with the default FONT leaves; its values spelled out. -/
def Obligations.ResetStateIsEmptyLoad : Prop :=
  hostLoad defaultFont (some []) State.reset = .ok State.reset ∧
    (∀ a, (h : a < 80) → State.reset.mem.read a = defaultFont[a]) ∧ (∀ a, 80 ≤ a → State.reset.mem.read a = 0#8) ∧
    (∀ x, State.reset.reg x = 0#8) ∧ State.reset.i = 0#16 ∧ State.reset.pc = 0x200#16 ∧ State.reset.stack = [] ∧
    State.reset.dt = 0#8 ∧ State.reset.st = 0#8 ∧ (∀ k, State.reset.keyDown k = false) ∧
    (∀ j, State.reset.fbCell j = false) ∧ State.reset.fault = none

/-- R243, R244. A tick takes one from each nonzero timer, in any state, and changes nothing else (decision D14); sound is
on while ST is not 0 (decision D25). -/
def Obligations.TimerTick : Prop :=
  ∀ s, (timerTick s).dt.toNat = s.dt.toNat - 1 ∧ (timerTick s).st.toNat = s.st.toNat - 1 ∧
    (soundOn s = true ↔ s.st ≠ 0#8) ∧ SameRegsBut [] s (timerTick s) ∧ (timerTick s).i = s.i ∧
    (timerTick s).pc = s.pc ∧ SameMem s (timerTick s) ∧ SameStack s (timerTick s) ∧ SameInputs s (timerTick s) ∧
    SameFb s (timerTick s)

/-- R245. `key_in` writes every key and changes nothing else (decision D15). -/
def Obligations.KeyInWritesEveryKey : Prop :=
  ∀ (k16 : Vector Bool 16) (s : State), (∀ k : RegIx, (keyIn k16 s).keyDown k = k16[k.val]) ∧
    SameRegsBut [] s (keyIn k16 s) ∧ (keyIn k16 s).i = s.i ∧ (keyIn k16 s).pc = s.pc ∧ SameMem s (keyIn k16 s) ∧
    SameStack s (keyIn k16 s) ∧ SameTimers s (keyIn k16 s) ∧ (keyIn k16 s).fault = s.fault ∧
    SameFb s (keyIn k16 s)

/-- R251. Faulted, idle and running are as the rule says, and an idle core's cycle leaves the state unchanged
(decision D21). -/
def Obligations.IdleStateIsStable : Prop :=
  ∀ s, (s.condition = .faulted ↔ s.fault ≠ none) ∧
    (s.condition = .idle ↔ s.fault = none ∧ ∃ w, fetch s = .ok w ∧ w.toNat = 0x1000 + s.pc.toNat) ∧
    (s.condition = .running ↔ s.condition ≠ .faulted ∧ s.condition ≠ .idle) ∧
    (s.condition = .idle → step s = .next s)
end

