-- ==== Sys2Proof/Laws/Memory.lean ====
section
/-!
SUPPORT. Memory: a read after a write, in every memory, and the canonical form, which every memory operation keeps.
-/

namespace Sys2Proof.Machine

/-! ### Read after write -/

theorem Memory.read_insert (m : Memory) (a c : Nat) (v : Byte) :
    (m.insert a v).read c = if c = a then v else m.read c := by
  by_cases hc : c = a
  · subst hc
    induction m with
    | nil => simp [Memory.insert, Memory.read]
    | cons e m ih =>
      simp only [Memory.insert]
      split
      · simp [Memory.read]
      · split
        · simp [Memory.read]
        · rename_i hne
          simpa [Memory.read, Ne.symm hne] using ih
  · have hc' : ¬ a = c := fun h => hc h.symm
    induction m with
    | nil => simp [Memory.insert, Memory.read, hc, hc']
    | cons e m ih =>
      simp only [Memory.insert]
      split
      · simp [Memory.read, hc']
      · split
        · rename_i heq
          simp [Memory.read, hc', ← heq]
        · simp only [Memory.read, ih, hc, ↓reduceIte]

theorem Memory.read_erase (m : Memory) (a c : Nat) :
    (m.erase a).read c = if c = a then initialByte a else m.read c := by
  induction m with
  | nil =>
    simp only [Memory.erase, Memory.read]
    split <;> simp_all
  | cons e m ih =>
    obtain ⟨b, w⟩ := e
    simp only [Memory.erase]
    split
    · by_cases hc : c = a <;> simp_all [Memory.read, eq_comm]
    · by_cases hc : c = a <;> simp_all [Memory.read]

/-- A byte written below 4096 is read back, and every other byte is unchanged (R60). -/
theorem Memory.read_write (m : Memory) {a : Nat} (ha : a < 4096) (v : Byte) (c : Nat) :
    (m.write a v).read c = if c = a then v else m.read c := by
  simp only [Memory.write, ha, ↓reduceIte]
  split
  · simp only [Memory.read_erase]
    split <;> simp_all
  · exact Memory.read_insert m a c v

theorem Memory.read_write_of_ne (m : Memory) {a c : Nat} (h : c ≠ a) (v : Byte) :
    (m.write a v).read c = m.read c := by
  by_cases ha : a < 4096
  · simp [Memory.read_write m ha, h]
  · simp [Memory.write, ha]

/-! ### The canonical form -/

theorem Memory.wfFrom_mono {m : Memory} {lo hi : Nat} (h : lo ≤ hi) (w : m.wfFrom hi = true) :
    m.wfFrom lo = true := by
  cases m with
  | nil => rfl
  | cons e m =>
    simp only [Memory.wfFrom, Bool.and_eq_true, decide_eq_true_eq] at w ⊢
    exact ⟨⟨⟨by omega, w.1.1.2⟩, w.1.2⟩, w.2⟩

theorem Memory.wfFrom_insert {m : Memory} {lo a : Nat} {v : Byte} (w : m.wfFrom lo = true) (hl : lo ≤ a)
    (ha : a < 4096) (hv : v ≠ initialByte a) : (m.insert a v).wfFrom lo = true := by
  induction m generalizing lo with
  | nil => simp [Memory.insert, Memory.wfFrom, hl, ha, hv]
  | cons e m ih =>
    obtain ⟨b, u⟩ := e
    simp only [Memory.wfFrom, Bool.and_eq_true, decide_eq_true_eq, bne_iff_ne] at w
    simp only [Memory.insert]
    split
    · simp [Memory.wfFrom, hl, ha, hv, w]
      omega
    · split
      · subst_vars
        simp [Memory.wfFrom, hl, ha, hv, w]
      · simp only [Memory.wfFrom, Bool.and_eq_true, decide_eq_true_eq, bne_iff_ne]
        exact ⟨w.1, ih w.2 (by omega)⟩

theorem Memory.wfFrom_erase {m : Memory} {lo : Nat} (a : Nat) (w : m.wfFrom lo = true) :
    (m.erase a).wfFrom lo = true := by
  induction m generalizing lo with
  | nil => rfl
  | cons e m ih =>
    obtain ⟨b, u⟩ := e
    simp only [Memory.wfFrom, Bool.and_eq_true, decide_eq_true_eq, bne_iff_ne] at w
    simp only [Memory.erase]
    split
    · exact Memory.wfFrom_mono (by omega) (ih w.2)
    · simp only [Memory.wfFrom, Bool.and_eq_true, decide_eq_true_eq, bne_iff_ne]
      exact ⟨w.1, ih w.2⟩

/-- A write keeps the canonical form. -/
theorem Memory.wf_write {m : Memory} (w : m.wf = true) (a : Nat) (v : Byte) : (m.write a v).wf = true := by
  simp only [Memory.write]
  split
  · split
    · exact Memory.wfFrom_erase a w
    · rename_i ha hv
      exact Memory.wfFrom_insert w (Nat.zero_le a) ha hv
  · exact w

/-- A block of writes keeps the canonical form. -/
theorem Memory.wf_writeBlock {m : Memory} (w : m.wf = true) (base : Nat) (bs : List Byte) :
    (writeBlock m base bs).wf = true := by
  induction bs generalizing m base with
  | nil => exact w
  | cons b bs ih => exact ih (Memory.wf_write w base b) (base + 1)

/-- `MemWrite` keeps the canonical form (R53). -/
theorem memWrite_wf {m m' : Memory} {a : Nat} {v : Byte} (h : memWrite m a v = .ok m') (w : m.wf = true) :
    m'.wf = true := by
  simp only [memWrite] at h
  split at h
  · cases h
  · cases h
    exact Memory.wf_write w a v

/-- The memory after `load` is in canonical form (R260). -/
theorem loadedMemory_wf (font : Config.Font) (image : List Byte) : (loadedMemory font image).wf = true :=
  Memory.wf_writeBlock (Memory.wf_writeBlock rfl 0 _) _ _

/-- Writing what empty memory already reads lists nothing. -/
theorem writeBlock_nil_of_initial (bs : List Byte) (base : Nat) (hb : base + bs.length ≤ 4096)
    (h : ∀ k, (hk : k < bs.length) → bs[k] = initialByte (base + k)) : writeBlock [] base bs = [] := by
  induction bs generalizing base with
  | nil => rfl
  | cons b bs ih =>
    simp only [List.length_cons] at hb h
    have hw : Memory.write [] base b = [] := by
      have h0 : b = initialByte base := h 0 (Nat.succ_pos _)
      rw [Memory.write, if_pos (by omega), if_pos h0]; rfl
    rw [writeBlock, hw]
    refine ih _ (by omega) fun k hk => ?_
    have hk' := h (k + 1) (by omega)
    rw [List.getElem_cons_succ] at hk'
    rw [hk', Nat.add_assoc, Nat.add_comm 1 k]

/-- A load of a zero-length image with the default FONT lists nothing (R260, log entries 1 and 2). -/
theorem loadedMemory_default_nil : loadedMemory defaultFont [] = [] := by
  have hf : writeBlock [] 0 defaultFontBytes = [] :=
    writeBlock_nil_of_initial defaultFontBytes 0 (by decide) fun k hk => by
      rw [Nat.zero_add, initialByte, List.getD_eq_getElem _ _ hk]
  have hl : defaultFont.toList = defaultFontBytes := rfl
  rw [loadedMemory, hl, hf]
  rfl

/-- The memory of the reset state is in canonical form. -/
theorem reset_mem_wf : State.reset.mem.wf = true := rfl

/-- Placing an instruction's word keeps the canonical form. -/
theorem withFetchWord_mem_wf (s : State) (nbits w : Nat) (h : s.mem.wf = true) :
    (s.withFetchWord nbits w).mem.wf = true :=
  Memory.wf_writeBlock h _ _

/-! ### Blocks -/

@[simp] theorem readBlock_length (m : Memory) (base n : Nat) : (readBlock m base n).length = n := by
  induction n generalizing base with
  | zero => rfl
  | succ n ih => simp [readBlock, ih]

/-- The byte at offset `k` of a block. -/
theorem readBlock_getElem (m : Memory) (base n k : Nat) (h : k < (readBlock m base n).length) :
    (readBlock m base n)[k] = m.read (base + k) := by
  induction n generalizing base k with
  | zero => simp [readBlock] at h
  | succ n ih =>
    cases k with
    | zero => rfl
    | succ k => simpa [readBlock, Nat.add_assoc, Nat.add_comm 1 k] using ih (base + 1) k _

/-- Outside the block nothing changes. -/
theorem read_writeBlock_of_not_mem (m : Memory) (base : Nat) (bs : List Byte) (c : Nat)
    (h : ¬ (base ≤ c ∧ c < base + bs.length)) : (writeBlock m base bs).read c = m.read c := by
  induction bs generalizing m base with
  | nil => rfl
  | cons b bs ih =>
    simp only [List.length_cons] at h
    rw [writeBlock, ih _ _ (by omega), Memory.read_write_of_ne m (by omega)]

/-- Offset `k` of a block written below 4096 reads as its byte. -/
theorem read_writeBlock (m : Memory) (base : Nat) (bs : List Byte) (hb : base + bs.length ≤ 4096) (k : Nat)
    (h : k < bs.length) : (writeBlock m base bs).read (base + k) = bs[k] := by
  induction bs generalizing m base k with
  | nil => simp at h
  | cons b bs ih =>
    simp only [List.length_cons] at hb h
    cases k with
    | zero =>
      rw [writeBlock, read_writeBlock_of_not_mem _ _ _ _ (by omega), Memory.read_write m (by omega)]
      simp
    | succ k =>
      have := ih (m.write base b) (base + 1) (by omega) k (by omega)
      simpa [writeBlock, Nat.add_assoc, Nat.add_comm 1 k] using this

/-- What the range check answers (R64, R194). -/
theorem rangeFault_eq_none_iff (base n : Nat) : rangeFault base n = none ↔ n = 0 ∨ base + n ≤ 4096 := by
  simp only [rangeFault]
  split
  · simp [*]
  · split <;> simp only [reduceCtorEq, false_iff, true_iff] <;> omega

/-- The address the range check names: the highest of the range, 4096 or more (R231). -/
theorem rangeFault_eq_some_iff (base n a : Nat) :
    rangeFault base n = some a ↔ 0 < n ∧ a = base + n - 1 ∧ 4096 ≤ a := by
  simp only [rangeFault]
  split
  · simp only [reduceCtorEq, false_iff]
    omega
  · split <;> simp only [reduceCtorEq, false_iff, Option.some.injEq] <;> omega

end Sys2Proof.Machine
end

