-- ==== Sys2Proof/Laws/State.lean ====
section
/-!
SUPPORT. One lemma per field of `State` per update, so that no later proof unfolds a record update, and what a
register reads as after each.
-/

namespace Sys2Proof.Machine

variable (s : State)

/-! ### setReg -/

@[simp] theorem State.setReg_mem (x : RegIx) (b : Byte) : (s.setReg x b).mem = s.mem := rfl
@[simp] theorem State.setReg_v (x : RegIx) (b : Byte) : (s.setReg x b).v = s.v.set x.val b := rfl
@[simp] theorem State.setReg_i (x : RegIx) (b : Byte) : (s.setReg x b).i = s.i := rfl
@[simp] theorem State.setReg_pc (x : RegIx) (b : Byte) : (s.setReg x b).pc = s.pc := rfl
@[simp] theorem State.setReg_stack (x : RegIx) (b : Byte) : (s.setReg x b).stack = s.stack := rfl
@[simp] theorem State.setReg_dt (x : RegIx) (b : Byte) : (s.setReg x b).dt = s.dt := rfl
@[simp] theorem State.setReg_st (x : RegIx) (b : Byte) : (s.setReg x b).st = s.st := rfl
@[simp] theorem State.setReg_key (x : RegIx) (b : Byte) : (s.setReg x b).key = s.key := rfl
@[simp] theorem State.setReg_fb (x : RegIx) (b : Byte) : (s.setReg x b).fb = s.fb := rfl
@[simp] theorem State.setReg_fault (x : RegIx) (b : Byte) : (s.setReg x b).fault = s.fault := rfl
@[simp] theorem State.setReg_draws (x : RegIx) (b : Byte) : (s.setReg x b).draws = s.draws := rfl
@[simp] theorem State.setReg_stackCap (x : RegIx) (b : Byte) : (s.setReg x b).stackCap = s.stackCap := rfl

/-! ### setI -/

@[simp] theorem State.setI_mem (a : Word) : (s.setI a).mem = s.mem := rfl
@[simp] theorem State.setI_v (a : Word) : (s.setI a).v = s.v := rfl
@[simp] theorem State.setI_i (a : Word) : (s.setI a).i = a := rfl
@[simp] theorem State.setI_pc (a : Word) : (s.setI a).pc = s.pc := rfl
@[simp] theorem State.setI_stack (a : Word) : (s.setI a).stack = s.stack := rfl
@[simp] theorem State.setI_dt (a : Word) : (s.setI a).dt = s.dt := rfl
@[simp] theorem State.setI_st (a : Word) : (s.setI a).st = s.st := rfl
@[simp] theorem State.setI_key (a : Word) : (s.setI a).key = s.key := rfl
@[simp] theorem State.setI_fb (a : Word) : (s.setI a).fb = s.fb := rfl
@[simp] theorem State.setI_fault (a : Word) : (s.setI a).fault = s.fault := rfl
@[simp] theorem State.setI_draws (a : Word) : (s.setI a).draws = s.draws := rfl
@[simp] theorem State.setI_stackCap (a : Word) : (s.setI a).stackCap = s.stackCap := rfl

/-! ### setPc -/

@[simp] theorem State.setPc_mem (a : Word) : (s.setPc a).mem = s.mem := rfl
@[simp] theorem State.setPc_v (a : Word) : (s.setPc a).v = s.v := rfl
@[simp] theorem State.setPc_i (a : Word) : (s.setPc a).i = s.i := rfl
@[simp] theorem State.setPc_pc (a : Word) : (s.setPc a).pc = a := rfl
@[simp] theorem State.setPc_stack (a : Word) : (s.setPc a).stack = s.stack := rfl
@[simp] theorem State.setPc_dt (a : Word) : (s.setPc a).dt = s.dt := rfl
@[simp] theorem State.setPc_st (a : Word) : (s.setPc a).st = s.st := rfl
@[simp] theorem State.setPc_key (a : Word) : (s.setPc a).key = s.key := rfl
@[simp] theorem State.setPc_fb (a : Word) : (s.setPc a).fb = s.fb := rfl
@[simp] theorem State.setPc_fault (a : Word) : (s.setPc a).fault = s.fault := rfl
@[simp] theorem State.setPc_draws (a : Word) : (s.setPc a).draws = s.draws := rfl
@[simp] theorem State.setPc_stackCap (a : Word) : (s.setPc a).stackCap = s.stackCap := rfl

/-! ### setDt -/

@[simp] theorem State.setDt_mem (b : Byte) : (s.setDt b).mem = s.mem := rfl
@[simp] theorem State.setDt_v (b : Byte) : (s.setDt b).v = s.v := rfl
@[simp] theorem State.setDt_i (b : Byte) : (s.setDt b).i = s.i := rfl
@[simp] theorem State.setDt_pc (b : Byte) : (s.setDt b).pc = s.pc := rfl
@[simp] theorem State.setDt_stack (b : Byte) : (s.setDt b).stack = s.stack := rfl
@[simp] theorem State.setDt_dt (b : Byte) : (s.setDt b).dt = b := rfl
@[simp] theorem State.setDt_st (b : Byte) : (s.setDt b).st = s.st := rfl
@[simp] theorem State.setDt_key (b : Byte) : (s.setDt b).key = s.key := rfl
@[simp] theorem State.setDt_fb (b : Byte) : (s.setDt b).fb = s.fb := rfl
@[simp] theorem State.setDt_fault (b : Byte) : (s.setDt b).fault = s.fault := rfl
@[simp] theorem State.setDt_draws (b : Byte) : (s.setDt b).draws = s.draws := rfl
@[simp] theorem State.setDt_stackCap (b : Byte) : (s.setDt b).stackCap = s.stackCap := rfl

/-! ### setSt -/

@[simp] theorem State.setSt_mem (b : Byte) : (s.setSt b).mem = s.mem := rfl
@[simp] theorem State.setSt_v (b : Byte) : (s.setSt b).v = s.v := rfl
@[simp] theorem State.setSt_i (b : Byte) : (s.setSt b).i = s.i := rfl
@[simp] theorem State.setSt_pc (b : Byte) : (s.setSt b).pc = s.pc := rfl
@[simp] theorem State.setSt_stack (b : Byte) : (s.setSt b).stack = s.stack := rfl
@[simp] theorem State.setSt_dt (b : Byte) : (s.setSt b).dt = s.dt := rfl
@[simp] theorem State.setSt_st (b : Byte) : (s.setSt b).st = b := rfl
@[simp] theorem State.setSt_key (b : Byte) : (s.setSt b).key = s.key := rfl
@[simp] theorem State.setSt_fb (b : Byte) : (s.setSt b).fb = s.fb := rfl
@[simp] theorem State.setSt_fault (b : Byte) : (s.setSt b).fault = s.fault := rfl
@[simp] theorem State.setSt_draws (b : Byte) : (s.setSt b).draws = s.draws := rfl
@[simp] theorem State.setSt_stackCap (b : Byte) : (s.setSt b).stackCap = s.stackCap := rfl

/-! ### setMem -/

@[simp] theorem State.setMem_mem (m : Memory) : (s.setMem m).mem = m := rfl
@[simp] theorem State.setMem_v (m : Memory) : (s.setMem m).v = s.v := rfl
@[simp] theorem State.setMem_i (m : Memory) : (s.setMem m).i = s.i := rfl
@[simp] theorem State.setMem_pc (m : Memory) : (s.setMem m).pc = s.pc := rfl
@[simp] theorem State.setMem_stack (m : Memory) : (s.setMem m).stack = s.stack := rfl
@[simp] theorem State.setMem_dt (m : Memory) : (s.setMem m).dt = s.dt := rfl
@[simp] theorem State.setMem_st (m : Memory) : (s.setMem m).st = s.st := rfl
@[simp] theorem State.setMem_key (m : Memory) : (s.setMem m).key = s.key := rfl
@[simp] theorem State.setMem_fb (m : Memory) : (s.setMem m).fb = s.fb := rfl
@[simp] theorem State.setMem_fault (m : Memory) : (s.setMem m).fault = s.fault := rfl
@[simp] theorem State.setMem_draws (m : Memory) : (s.setMem m).draws = s.draws := rfl
@[simp] theorem State.setMem_stackCap (m : Memory) : (s.setMem m).stackCap = s.stackCap := rfl

/-! ### setFb -/

@[simp] theorem State.setFb_mem (f : Framebuffer) : (s.setFb f).mem = s.mem := rfl
@[simp] theorem State.setFb_v (f : Framebuffer) : (s.setFb f).v = s.v := rfl
@[simp] theorem State.setFb_i (f : Framebuffer) : (s.setFb f).i = s.i := rfl
@[simp] theorem State.setFb_pc (f : Framebuffer) : (s.setFb f).pc = s.pc := rfl
@[simp] theorem State.setFb_stack (f : Framebuffer) : (s.setFb f).stack = s.stack := rfl
@[simp] theorem State.setFb_dt (f : Framebuffer) : (s.setFb f).dt = s.dt := rfl
@[simp] theorem State.setFb_st (f : Framebuffer) : (s.setFb f).st = s.st := rfl
@[simp] theorem State.setFb_key (f : Framebuffer) : (s.setFb f).key = s.key := rfl
@[simp] theorem State.setFb_fb (f : Framebuffer) : (s.setFb f).fb = f := rfl
@[simp] theorem State.setFb_fault (f : Framebuffer) : (s.setFb f).fault = s.fault := rfl
@[simp] theorem State.setFb_draws (f : Framebuffer) : (s.setFb f).draws = s.draws := rfl
@[simp] theorem State.setFb_stackCap (f : Framebuffer) : (s.setFb f).stackCap = s.stackCap := rfl

/-! ### setVf -/

theorem State.setVf_mem (b : Byte) : (s.setVf b).mem = s.mem := rfl
theorem State.setVf_v (b : Byte) : (s.setVf b).v = s.v.set 15 b := rfl
theorem State.setVf_i (b : Byte) : (s.setVf b).i = s.i := rfl
theorem State.setVf_pc (b : Byte) : (s.setVf b).pc = s.pc := rfl
theorem State.setVf_stack (b : Byte) : (s.setVf b).stack = s.stack := rfl
theorem State.setVf_dt (b : Byte) : (s.setVf b).dt = s.dt := rfl
theorem State.setVf_st (b : Byte) : (s.setVf b).st = s.st := rfl
theorem State.setVf_key (b : Byte) : (s.setVf b).key = s.key := rfl
theorem State.setVf_fb (b : Byte) : (s.setVf b).fb = s.fb := rfl
theorem State.setVf_fault (b : Byte) : (s.setVf b).fault = s.fault := rfl
theorem State.setVf_draws (b : Byte) : (s.setVf b).draws = s.draws := rfl
theorem State.setVf_stackCap (b : Byte) : (s.setVf b).stackCap = s.stackCap := rfl

/-! ### advance -/

@[simp] theorem State.advance_mem : (s.advance).mem = s.mem := rfl
@[simp] theorem State.advance_v : (s.advance).v = s.v := rfl
@[simp] theorem State.advance_i : (s.advance).i = s.i := rfl
@[simp] theorem State.advance_pc : (s.advance).pc = s.pc + 2#16 := rfl
@[simp] theorem State.advance_stack : (s.advance).stack = s.stack := rfl
@[simp] theorem State.advance_dt : (s.advance).dt = s.dt := rfl
@[simp] theorem State.advance_st : (s.advance).st = s.st := rfl
@[simp] theorem State.advance_key : (s.advance).key = s.key := rfl
@[simp] theorem State.advance_fb : (s.advance).fb = s.fb := rfl
@[simp] theorem State.advance_fault : (s.advance).fault = s.fault := rfl
@[simp] theorem State.advance_draws : (s.advance).draws = s.draws := rfl
@[simp] theorem State.advance_stackCap : (s.advance).stackCap = s.stackCap := rfl

/-! ### advanceI -/

@[simp] theorem State.advanceI_mem (k : Word) : (s.advanceI k).mem = s.mem := rfl
@[simp] theorem State.advanceI_v (k : Word) : (s.advanceI k).v = s.v := rfl
@[simp] theorem State.advanceI_i (k : Word) : (s.advanceI k).i = s.i + k := rfl
@[simp] theorem State.advanceI_pc (k : Word) : (s.advanceI k).pc = s.pc := rfl
@[simp] theorem State.advanceI_stack (k : Word) : (s.advanceI k).stack = s.stack := rfl
@[simp] theorem State.advanceI_dt (k : Word) : (s.advanceI k).dt = s.dt := rfl
@[simp] theorem State.advanceI_st (k : Word) : (s.advanceI k).st = s.st := rfl
@[simp] theorem State.advanceI_key (k : Word) : (s.advanceI k).key = s.key := rfl
@[simp] theorem State.advanceI_fb (k : Word) : (s.advanceI k).fb = s.fb := rfl
@[simp] theorem State.advanceI_fault (k : Word) : (s.advanceI k).fault = s.fault := rfl
@[simp] theorem State.advanceI_draws (k : Word) : (s.advanceI k).draws = s.draws := rfl
@[simp] theorem State.advanceI_stackCap (k : Word) : (s.advanceI k).stackCap = s.stackCap := rfl

/-! ### push -/

@[simp] theorem State.push_mem (a : Word) : (s.push a).mem = s.mem := rfl
@[simp] theorem State.push_v (a : Word) : (s.push a).v = s.v := rfl
@[simp] theorem State.push_i (a : Word) : (s.push a).i = s.i := rfl
@[simp] theorem State.push_pc (a : Word) : (s.push a).pc = s.pc := rfl
@[simp] theorem State.push_stack (a : Word) : (s.push a).stack = s.stack ++ [a] := rfl
@[simp] theorem State.push_dt (a : Word) : (s.push a).dt = s.dt := rfl
@[simp] theorem State.push_st (a : Word) : (s.push a).st = s.st := rfl
@[simp] theorem State.push_key (a : Word) : (s.push a).key = s.key := rfl
@[simp] theorem State.push_fb (a : Word) : (s.push a).fb = s.fb := rfl
@[simp] theorem State.push_fault (a : Word) : (s.push a).fault = s.fault := rfl
@[simp] theorem State.push_draws (a : Word) : (s.push a).draws = s.draws := rfl
@[simp] theorem State.push_stackCap (a : Word) : (s.push a).stackCap = s.stackCap := rfl

/-! ### latch -/

@[simp] theorem State.latch_mem (f : FaultRecord) : (s.latch f).mem = s.mem := rfl
@[simp] theorem State.latch_v (f : FaultRecord) : (s.latch f).v = s.v := rfl
@[simp] theorem State.latch_i (f : FaultRecord) : (s.latch f).i = s.i := rfl
@[simp] theorem State.latch_pc (f : FaultRecord) : (s.latch f).pc = s.pc := rfl
@[simp] theorem State.latch_stack (f : FaultRecord) : (s.latch f).stack = s.stack := rfl
@[simp] theorem State.latch_dt (f : FaultRecord) : (s.latch f).dt = s.dt := rfl
@[simp] theorem State.latch_st (f : FaultRecord) : (s.latch f).st = s.st := rfl
@[simp] theorem State.latch_key (f : FaultRecord) : (s.latch f).key = s.key := rfl
@[simp] theorem State.latch_fb (f : FaultRecord) : (s.latch f).fb = s.fb := rfl
@[simp] theorem State.latch_fault (f : FaultRecord) : (s.latch f).fault = some f := rfl
@[simp] theorem State.latch_draws (f : FaultRecord) : (s.latch f).draws = s.draws := rfl
@[simp] theorem State.latch_stackCap (f : FaultRecord) : (s.latch f).stackCap = s.stackCap := rfl

/-! ### zeroed -/

@[simp] theorem State.zeroed_mem (m : Memory) : (s.zeroed m).mem = m := rfl
@[simp] theorem State.zeroed_v (m : Memory) : (s.zeroed m).v = Vector.replicate 16 0#8 := rfl
@[simp] theorem State.zeroed_i (m : Memory) : (s.zeroed m).i = 0#16 := rfl
@[simp] theorem State.zeroed_pc (m : Memory) : (s.zeroed m).pc = 0x200#16 := rfl
@[simp] theorem State.zeroed_stack (m : Memory) : (s.zeroed m).stack = [] := rfl
@[simp] theorem State.zeroed_dt (m : Memory) : (s.zeroed m).dt = 0#8 := rfl
@[simp] theorem State.zeroed_st (m : Memory) : (s.zeroed m).st = 0#8 := rfl
@[simp] theorem State.zeroed_key (m : Memory) : (s.zeroed m).key = Vector.replicate 16 false := rfl
@[simp] theorem State.zeroed_fb (m : Memory) : (s.zeroed m).fb = Vector.replicate 32 0#64 := rfl
@[simp] theorem State.zeroed_fault (m : Memory) : (s.zeroed m).fault = none := rfl
@[simp] theorem State.zeroed_draws (m : Memory) : (s.zeroed m).draws = s.draws := rfl
@[simp] theorem State.zeroed_stackCap (m : Memory) : (s.zeroed m).stackCap = s.stackCap := rfl

/-! ### draw8 -/

@[simp] theorem State.draw8_mem : s.draw8.2.mem = s.mem := rfl
@[simp] theorem State.draw8_v : s.draw8.2.v = s.v := rfl
@[simp] theorem State.draw8_i : s.draw8.2.i = s.i := rfl
@[simp] theorem State.draw8_pc : s.draw8.2.pc = s.pc := rfl
@[simp] theorem State.draw8_stack : s.draw8.2.stack = s.stack := rfl
@[simp] theorem State.draw8_dt : s.draw8.2.dt = s.dt := rfl
@[simp] theorem State.draw8_st : s.draw8.2.st = s.st := rfl
@[simp] theorem State.draw8_key : s.draw8.2.key = s.key := rfl
@[simp] theorem State.draw8_fb : s.draw8.2.fb = s.fb := rfl
@[simp] theorem State.draw8_fault : s.draw8.2.fault = s.fault := rfl
@[simp] theorem State.draw8_draws : s.draw8.2.draws = s.draws + 1 := rfl
@[simp] theorem State.draw8_stackCap : s.draw8.2.stackCap = s.stackCap := rfl
@[simp] theorem State.draw8_fst : s.draw8.1 = Config.randomByte s.draws := rfl

/-! ### skipIf -/

@[simp] theorem State.skipIf_mem (c : Bool) : (s.skipIf c).mem = s.mem := by cases c <;> rfl
@[simp] theorem State.skipIf_v (c : Bool) : (s.skipIf c).v = s.v := by cases c <;> rfl
@[simp] theorem State.skipIf_i (c : Bool) : (s.skipIf c).i = s.i := by cases c <;> rfl
@[simp] theorem State.skipIf_pc (c : Bool) : (s.skipIf c).pc = if c then s.pc + 2#16 else s.pc := by cases c <;> rfl
@[simp] theorem State.skipIf_stack (c : Bool) : (s.skipIf c).stack = s.stack := by cases c <;> rfl
@[simp] theorem State.skipIf_dt (c : Bool) : (s.skipIf c).dt = s.dt := by cases c <;> rfl
@[simp] theorem State.skipIf_st (c : Bool) : (s.skipIf c).st = s.st := by cases c <;> rfl
@[simp] theorem State.skipIf_key (c : Bool) : (s.skipIf c).key = s.key := by cases c <;> rfl
@[simp] theorem State.skipIf_fb (c : Bool) : (s.skipIf c).fb = s.fb := by cases c <;> rfl
@[simp] theorem State.skipIf_fault (c : Bool) : (s.skipIf c).fault = s.fault := by cases c <;> rfl
@[simp] theorem State.skipIf_draws (c : Bool) : (s.skipIf c).draws = s.draws := by cases c <;> rfl
@[simp] theorem State.skipIf_stackCap (c : Bool) : (s.skipIf c).stackCap = s.stackCap := by cases c <;> rfl

/-! ### loadRegs -/

@[simp] theorem State.loadRegs_mem (base : Nat) (rs : List RegIx) : (s.loadRegs base rs).mem = s.mem := by
  induction rs generalizing s with
  | nil => rfl
  | cons r rs ih => exact ih _
@[simp] theorem State.loadRegs_i (base : Nat) (rs : List RegIx) : (s.loadRegs base rs).i = s.i := by
  induction rs generalizing s with
  | nil => rfl
  | cons r rs ih => exact ih _
@[simp] theorem State.loadRegs_pc (base : Nat) (rs : List RegIx) : (s.loadRegs base rs).pc = s.pc := by
  induction rs generalizing s with
  | nil => rfl
  | cons r rs ih => exact ih _
@[simp] theorem State.loadRegs_stack (base : Nat) (rs : List RegIx) : (s.loadRegs base rs).stack = s.stack := by
  induction rs generalizing s with
  | nil => rfl
  | cons r rs ih => exact ih _
@[simp] theorem State.loadRegs_dt (base : Nat) (rs : List RegIx) : (s.loadRegs base rs).dt = s.dt := by
  induction rs generalizing s with
  | nil => rfl
  | cons r rs ih => exact ih _
@[simp] theorem State.loadRegs_st (base : Nat) (rs : List RegIx) : (s.loadRegs base rs).st = s.st := by
  induction rs generalizing s with
  | nil => rfl
  | cons r rs ih => exact ih _
@[simp] theorem State.loadRegs_key (base : Nat) (rs : List RegIx) : (s.loadRegs base rs).key = s.key := by
  induction rs generalizing s with
  | nil => rfl
  | cons r rs ih => exact ih _
@[simp] theorem State.loadRegs_fb (base : Nat) (rs : List RegIx) : (s.loadRegs base rs).fb = s.fb := by
  induction rs generalizing s with
  | nil => rfl
  | cons r rs ih => exact ih _
@[simp] theorem State.loadRegs_fault (base : Nat) (rs : List RegIx) : (s.loadRegs base rs).fault = s.fault := by
  induction rs generalizing s with
  | nil => rfl
  | cons r rs ih => exact ih _
@[simp] theorem State.loadRegs_draws (base : Nat) (rs : List RegIx) : (s.loadRegs base rs).draws = s.draws := by
  induction rs generalizing s with
  | nil => rfl
  | cons r rs ih => exact ih _
@[simp] theorem State.loadRegs_stackCap (base : Nat) (rs : List RegIx) : (s.loadRegs base rs).stackCap = s.stackCap := by
  induction rs generalizing s with
  | nil => rfl
  | cons r rs ih => exact ih _

/-! ### Host steps -/

@[simp] theorem keyIn_mem (k16 : Vector Bool 16) : (keyIn k16 s).mem = s.mem := rfl
@[simp] theorem keyIn_v (k16 : Vector Bool 16) : (keyIn k16 s).v = s.v := rfl
@[simp] theorem keyIn_i (k16 : Vector Bool 16) : (keyIn k16 s).i = s.i := rfl
@[simp] theorem keyIn_pc (k16 : Vector Bool 16) : (keyIn k16 s).pc = s.pc := rfl
@[simp] theorem keyIn_stack (k16 : Vector Bool 16) : (keyIn k16 s).stack = s.stack := rfl
@[simp] theorem keyIn_dt (k16 : Vector Bool 16) : (keyIn k16 s).dt = s.dt := rfl
@[simp] theorem keyIn_st (k16 : Vector Bool 16) : (keyIn k16 s).st = s.st := rfl
@[simp] theorem keyIn_key (k16 : Vector Bool 16) : (keyIn k16 s).key = k16 := rfl
@[simp] theorem keyIn_fb (k16 : Vector Bool 16) : (keyIn k16 s).fb = s.fb := rfl
@[simp] theorem keyIn_fault (k16 : Vector Bool 16) : (keyIn k16 s).fault = s.fault := rfl
@[simp] theorem keyIn_draws (k16 : Vector Bool 16) : (keyIn k16 s).draws = s.draws := rfl
@[simp] theorem keyIn_stackCap (k16 : Vector Bool 16) : (keyIn k16 s).stackCap = s.stackCap := rfl
@[simp] theorem timerTick_mem : (timerTick s).mem = s.mem := rfl
@[simp] theorem timerTick_v : (timerTick s).v = s.v := rfl
@[simp] theorem timerTick_i : (timerTick s).i = s.i := rfl
@[simp] theorem timerTick_pc : (timerTick s).pc = s.pc := rfl
@[simp] theorem timerTick_stack : (timerTick s).stack = s.stack := rfl
@[simp] theorem timerTick_dt : (timerTick s).dt = tick s.dt := rfl
@[simp] theorem timerTick_st : (timerTick s).st = tick s.st := rfl
@[simp] theorem timerTick_key : (timerTick s).key = s.key := rfl
@[simp] theorem timerTick_fb : (timerTick s).fb = s.fb := rfl
@[simp] theorem timerTick_fault : (timerTick s).fault = s.fault := rfl
@[simp] theorem timerTick_draws : (timerTick s).draws = s.draws := rfl
@[simp] theorem timerTick_stackCap : (timerTick s).stackCap = s.stackCap := rfl

/-! ### Registers -/

/-- Register `y` after `V[x] <- b`. -/
theorem State.reg_setReg (x y : RegIx) (b : Byte) :
    (s.setReg x b).reg y = if y = x then b else s.reg y := by
  simp only [State.reg, State.setReg, Vector.getElem_set, Fin.ext_iff, eq_comm]

@[simp] theorem State.reg_setReg_self (x : RegIx) (b : Byte) : (s.setReg x b).reg x = b := by
  simp [State.reg_setReg]

theorem State.reg_setReg_of_ne {x y : RegIx} (b : Byte) (h : y ≠ x) : (s.setReg x b).reg y = s.reg y := by
  simp [State.reg_setReg, h]

/-- Two states that agree on every register have the same register file. -/
theorem State.v_ext {s t : State} (h : ∀ x, s.reg x = t.reg x) : s.v = t.v :=
  Vector.ext fun n hn => h ⟨n, hn⟩

/-- A register depends on the register file alone. -/
theorem State.reg_congr {s t : State} (h : s.v = t.v) (x : RegIx) : s.reg x = t.reg x := by
  simp [State.reg, h]

@[simp] theorem State.setVf_eq (b : Byte) : s.setVf b = s.setReg vf b := rfl

@[simp] theorem State.reg_setI (a : Word) (y : RegIx) : (s.setI a).reg y = s.reg y := rfl
@[simp] theorem State.reg_setPc (a : Word) (y : RegIx) : (s.setPc a).reg y = s.reg y := rfl
@[simp] theorem State.reg_setDt (b : Byte) (y : RegIx) : (s.setDt b).reg y = s.reg y := rfl
@[simp] theorem State.reg_setSt (b : Byte) (y : RegIx) : (s.setSt b).reg y = s.reg y := rfl
@[simp] theorem State.reg_setMem (m : Memory) (y : RegIx) : (s.setMem m).reg y = s.reg y := rfl
@[simp] theorem State.reg_setFb (f : Framebuffer) (y : RegIx) : (s.setFb f).reg y = s.reg y := rfl
@[simp] theorem State.reg_advance (y : RegIx) : (s.advance).reg y = s.reg y := rfl
@[simp] theorem State.reg_advanceI (k : Word) (y : RegIx) : (s.advanceI k).reg y = s.reg y := rfl
@[simp] theorem State.reg_push (a : Word) (y : RegIx) : (s.push a).reg y = s.reg y := rfl
@[simp] theorem State.reg_latch (f : FaultRecord) (y : RegIx) : (s.latch f).reg y = s.reg y := rfl
@[simp] theorem State.reg_draw8 (y : RegIx) : s.draw8.2.reg y = s.reg y := rfl
@[simp] theorem State.reg_skipIf (c : Bool) (y : RegIx) : (s.skipIf c).reg y = s.reg y := by cases c <;> rfl
@[simp] theorem State.reg_zeroed (m : Memory) (y : RegIx) : (s.zeroed m).reg y = 0#8 := by
  simp [State.reg]

@[simp] theorem State.fbCell_def (j : CellIx) : s.fbCell j = s.fb.cell j := rfl

end Sys2Proof.Machine
end

