-- ==== Sys2Proof/Laws/Ops.lean ====
section
/-!
SUPPORT. For each shared operation one lemma that says everything it can answer, for proofs to cite instead of
unfolding it.
-/

namespace Sys2Proof.Machine

/-! ### Faults -/

/-- Taking a fault latches the record and changes nothing else (R232 to R234). -/
theorem raiseFault_eq (cause : FaultCause) (i : Instr) (info : Option Nat) (s : State) :
    raiseFault cause i info s =
      .next { s with fault := some { cause := cause, ia := s.pc - 2#16, word := some (encode i), info := info } } :=
  rfl

/-- A range-checked instruction faults with the highest address, or has its effect (R194, R231). -/
theorem withRange_cases (i : Instr) (base n : Nat) (s t : State) :
    (0 < n ∧ 4096 < base + n ∧
      withRange i base n s t = raiseFault .memoryOutOfRange i (some (base + n - 1)) s) ∨
    ((n = 0 ∨ base + n ≤ 4096) ∧ withRange i base n s t = .next t) := by
  unfold withRange
  cases h : rangeFault base n with
  | none => exact .inr ⟨(rangeFault_eq_none_iff base n).1 h, rfl⟩
  | some a =>
    obtain ⟨h0, rfl, h4⟩ := (rangeFault_eq_some_iff base n a).1 h
    exact .inl ⟨h0, by omega, rfl⟩

/-- In range, the effect. -/
theorem withRange_of_le {base n : Nat} (h : base + n ≤ 4096) (i : Instr) (s t : State) :
    withRange i base n s t = .next t := by
  rw [withRange, (rangeFault_eq_none_iff base n).2 (.inr h)]

/-! ### Stack -/

/-- A pop answers the last entry pushed and the state without it, or nothing when the stack is empty (R102). -/
theorem State.pop_cases (s : State) :
    (s.stack = [] ∧ s.pop = none) ∨
    ∃ rest a, s.stack = rest ++ [a] ∧ s.pop = some (a, { s with stack := rest }) := by
  rcases List.eq_nil_or_concat s.stack with h | ⟨rest, a, h⟩
  · exact .inl ⟨h, by simp [State.pop, h]⟩
  · rw [List.concat_eq_append] at h
    exact .inr ⟨rest, a, h, by simp [State.pop, h]⟩

/-- A pop after a push gives the pushed address and the state before (R106). -/
theorem State.pop_push (s : State) (a : Word) : (s.push a).pop = some (a, s) := by
  simp [State.pop, State.push]

/-! ### Fetch -/

/-- What the fetch answers: the word of the two bytes, or the first address past memory (R71, R73). -/
theorem fetch_cases (s : State) :
    (s.pc.toNat + 1 < 4096 ∧
      fetch s = .ok (wordOfBytes (s.mem.read s.pc.toNat) (s.mem.read (s.pc.toNat + 1)))) ∨
    (s.pc.toNat = 4095 ∧ fetch s = .error 4096) ∨
    (4096 ≤ s.pc.toNat ∧ fetch s = .error s.pc.toNat) := by
  unfold fetch memRead
  by_cases h : 4096 ≤ s.pc.toNat
  · simp [h]
  · by_cases h' : 4096 ≤ s.pc.toNat + 1
    · have : s.pc.toNat = 4095 := by omega
      exact .inr (.inl ⟨this, by simp [this]⟩)
    · simp only [h, h', ↓reduceIte]
      exact .inl ⟨by omega, trivial⟩

/-- The cycle, whatever executes: halted, a fetch fault, a DecodeError, or one instruction executed (R70, R73, R80,
R235). -/
theorem cycleBy_cases (ex : Instr → State → Result) (s : State) :
    (∃ f, s.fault = some f ∧ cycleBy ex s = .fault (.halted f)) ∨
    (s.fault = none ∧ ∃ a, fetch s = .error a ∧ cycleBy ex s = fetchFault a s) ∨
    (s.fault = none ∧ ∃ w e, fetch s = .ok w ∧ decodeWord w = .error e ∧ cycleBy ex s = .next s.advance) ∨
    (s.fault = none ∧ ∃ w i, fetch s = .ok w ∧ decodeWord w = .ok i ∧ cycleBy ex s = ex i s.advance) := by
  unfold cycleBy
  cases hf : s.fault with
  | some f => exact .inl ⟨f, rfl, rfl⟩
  | none =>
    cases hw : fetch s with
    | error a => exact .inr (.inl ⟨rfl, a, rfl, rfl⟩)
    | ok w =>
      cases hd : decodeWord w with
      | error e => exact .inr (.inr (.inl ⟨rfl, w, e, rfl, hd, by simp only [hd]; rfl⟩))
      | ok i => exact .inr (.inr (.inr ⟨rfl, w, i, rfl, hd, by simp only [hd]⟩))

/-- The cycle on `exec`. -/
theorem step_cases (s : State) :
    (∃ f, s.fault = some f ∧ step s = .fault (.halted f)) ∨
    (s.fault = none ∧ ∃ a, fetch s = .error a ∧ step s = fetchFault a s) ∨
    (s.fault = none ∧ ∃ w e, fetch s = .ok w ∧ decodeWord w = .error e ∧ step s = .next s.advance) ∨
    (s.fault = none ∧ ∃ w i, fetch s = .ok w ∧ decodeWord w = .ok i ∧ step s = exec i s.advance) :=
  cycleBy_cases exec s

/-! ### Framebuffer -/

@[simp] theorem Framebuffer.cell_clear (j : CellIx) : Framebuffer.clear.cell j = false := by
  simp [Framebuffer.cell, Framebuffer.clear]

/-- A flip turns one cell over and leaves every other (R122). -/
theorem Framebuffer.cell_flip (f : Framebuffer) (j k : CellIx) :
    (f.flip j).cell k = (f.cell k ^^ decide (k = j)) := by
  have hj : j.val % 64 < 64 := by omega
  simp only [Framebuffer.flip, Framebuffer.cell, Vector.getElem_set]
  by_cases h : j.val / 64 = k.val / 64
  · simp only [h, ↓reduceIte, BitVec.getLsbD_xor, BitVec.getLsbD_twoPow, hj, decide_true, Bool.true_and]
    congr 1
    rw [decide_eq_decide]
    constructor
    · intro hm
      exact Fin.ext (by omega)
    · rintro rfl
      rfl
  · have : k ≠ j := by
      rintro rfl
      exact h rfl
    simp [h, this]

/-- Framebuffers with equal cells are equal (R32). -/
theorem Framebuffer.ext_cell {f g : Framebuffer} (h : ∀ j, f.cell j = g.cell j) : f = g := by
  refine Vector.ext fun r hr => BitVec.eq_of_getLsbD_eq fun c hc => ?_
  have := h ⟨r * 64 + c, by omega⟩
  simpa [Framebuffer.cell, show (r * 64 + c) / 64 = r by omega, show (r * 64 + c) % 64 = c by omega] using this

/-! ### Operands -/

/-- A key index is the byte itself below 16, and none above (R147). -/
theorem keyIndex_cases (b : Byte) :
    (∃ h : b.toNat < 16, keyIndex b = some ⟨b.toNat, h⟩) ∨ (16 ≤ b.toNat ∧ keyIndex b = none) := by
  unfold keyIndex
  by_cases h : b.toNat < 16
  · exact .inl ⟨h, by simp [h]⟩
  · exact .inr ⟨by omega, by simp [h]⟩

/-- The scan of a list in rising order answers its greatest pressed key. -/
theorem scan_cases (p : RegIx → Bool) (l : List RegIx) (hs : l.Pairwise (· < ·)) (z : Option RegIx)
    (hz : ∀ k, z = some k → p k = true ∧ ∀ j ∈ l, k < j) :
    match l.foldl (fun found k => if p k then some k else found) z with
    | none => z = none ∧ ∀ k ∈ l, p k = false
    | some k => p k = true ∧ (∀ j ∈ l, p j = true → j ≤ k) ∧ (z = some k ∨ k ∈ l) := by
  induction l generalizing z with
  | nil => cases z <;> simp_all
  | cons a l ih =>
    rw [List.pairwise_cons] at hs
    by_cases ha : p a = true
    · have := ih hs.2 (some a) (fun k hk => by cases hk; exact ⟨ha, hs.1⟩)
      simp only [List.foldl_cons, ha, ↓reduceIte]
      revert this
      split
      · simp
      · rename_i k _
        rintro ⟨h1, h2, h3⟩
        refine ⟨h1, ?_, .inr ?_⟩
        · intro j hj hp
          rcases List.mem_cons.1 hj with rfl | hj
          · rcases h3 with h3 | h3
            · cases h3
              exact le_refl _
            · exact le_of_lt (hs.1 k h3)
          · exact h2 j hj hp
        · rcases h3 with h3 | h3
          · cases h3
            simp
          · simp [h3]
    · have := ih hs.2 z (fun k hk => ⟨(hz k hk).1, fun j hj => (hz k hk).2 j (by simp [hj])⟩)
      have ha' : p a = false := by simpa using ha
      simp only [List.foldl_cons, ha', Bool.false_eq_true, ↓reduceIte]
      revert this
      split
      · rintro ⟨h1, h2⟩
        exact ⟨h1, by simpa [ha'] using h2⟩
      · rename_i k _
        rintro ⟨h1, h2, h3⟩
        refine ⟨h1, ?_, ?_⟩
        · intro j hj hp
          rcases List.mem_cons.1 hj with rfl | hj
          · simp [ha'] at hp
          · exact h2 j hj hp
        · rcases h3 with h3 | h3
          · exact .inl h3
          · exact .inr (by simp [h3])

/-- The key FX0A stores is the highest-indexed pressed key, and there is none when no key is pressed (R211, R212). -/
theorem State.highestKey_cases (s : State) :
    (s.highestKey = none ∧ ∀ k, s.keyDown k = false) ∨
    ∃ k, s.highestKey = some k ∧ s.keyDown k = true ∧ ∀ j, s.keyDown j = true → j ≤ k := by
  have h := scan_cases s.keyDown (List.finRange 16) (by decide) none (by simp)
  unfold State.highestKey
  revert h
  split
  · rename_i he
    rintro ⟨-, h⟩
    exact .inl ⟨he, fun k => h k (List.mem_finRange k)⟩
  · rename_i k he
    rintro ⟨h1, h2, -⟩
    exact .inr ⟨k, he, h1, fun j => h2 j (List.mem_finRange j)⟩

/-- V0..VX are the registers up to X (R196, R197). -/
theorem mem_regsUpTo (x r : RegIx) : r ∈ regsUpTo x ↔ r ≤ x := by
  revert x r
  decide

theorem regsUpTo_length (x : RegIx) : (regsUpTo x).length = x.val + 1 := by
  simp [regsUpTo]

theorem regsUpTo_getElem (x : RegIx) (k : Nat) (h : k < (regsUpTo x).length) :
    (regsUpTo x)[k] = ⟨k, by rw [regsUpTo_length] at h; omega⟩ := by
  simp [regsUpTo]

@[simp] theorem State.regBytes_length (s : State) (x : RegIx) : (s.regBytes x).length = x.val + 1 := by
  simp [State.regBytes, regsUpTo_length]

/-- The k-th stored byte is V[k] (R196). -/
theorem State.regBytes_getElem (s : State) (x : RegIx) (k : Nat) (h : k < (s.regBytes x).length) :
    (s.regBytes x)[k] = s.reg ⟨k, by simp at h; omega⟩ := by
  simp [State.regBytes, regsUpTo_getElem]

/-- Loading a list of registers gives each its byte and leaves the others (R197). -/
theorem State.reg_loadRegs (s : State) (base : Nat) (rs : List RegIx) (r : RegIx) :
    (s.loadRegs base rs).reg r = if r ∈ rs then s.mem.read (base + r.val) else s.reg r := by
  induction rs generalizing s with
  | nil => simp [State.loadRegs]
  | cons q rs ih =>
    rw [State.loadRegs, ih]
    by_cases h : r ∈ rs
    · simp [h]
    · by_cases hq : r = q
      · subst hq
        simp [h]
      · simp [h, hq, State.reg_setReg_of_ne s _ hq]

/-- A timer goes down by one and stops at 0 (R243). -/
theorem tick_toNat (b : Byte) : (tick b).toNat = b.toNat - 1 := by
  unfold tick
  split
  · rw [BitVec.toNat_sub_of_le (by bv_omega)]
    rfl
  · omega

end Sys2Proof.Machine
end

