-- ==== Sys2Proof/Machine/Arguments.lean ====
section
/-!
DEFINITION. The model with its parameters and draws as arguments (spec rules R7 and R40 of 00_scope.md and
10_state.md): the cycle as a function of R20's record, of P_STACK_CAPACITY and of the cycle's `RAND` draw, and the
machine as a function of P_STACK_CAPACITY. FONT is an argument of `hostLoad`.
-/

namespace Sys2Proof.Machine

/-- The record together with what carries the argument P_STACK_CAPACITY (R40, log entry 4). The number of the next draw
is of no account here: the draw is an argument of `cycleWith`. -/
def MachineState.carrying (m : MachineState) (stackCap : Option Nat) : State :=
  { toMachineState := m, draws := 0, stackCap := stackCap }

/-- `Execute` with the draw as an argument: only CXNN takes it (R87, R174). -/
def execWith (draw : Byte) (i : Instr) (s : State) : Result :=
  match i with
  | .rnd x nn => rndWith draw x nn s
  | i => exec i s

/-- R20's record in what a cycle answers, none where there is no cycle (R235). -/
def recordOf : Result → Option MachineState
  | .next t => some t.toMachineState
  | .fault _ => none
  | .refused _ => none

/-- The cycle on R20's record, with P_STACK_CAPACITY and the draw as arguments (R7, R40, R70): none from a halted core.
`step` is this cycle at the arguments its state carries (`step_record` in Laws/Arguments.lean). -/
def cycleWith (stackCap : Option Nat) (draw : Byte) (m : MachineState) : Option MachineState :=
  recordOf (cycleBy (execWith draw) (m.carrying stackCap))

/-- The state after reset for any P_STACK_CAPACITY (R7, R39, R40). -/
def State.resetWith (stackCap : Option Nat) : State := { State.reset with stackCap := stackCap }

/-- The machine for any P_STACK_CAPACITY (R7, R40); `Sys2Proof.core` is it at the default `none`. -/
def coreWith (stackCap : Option Nat) : Host.Core :=
  { Sys2Proof.core with reset := State.resetWith stackCap }

end Sys2Proof.Machine
end

