-- ==== Sys2Proof/Laws/Arguments.lean ====
section
/-!
SUPPORT. The two fields of `State` beside R20's record only carry arguments (spec rule R40): a cycle of the machine is,
on the record, the cycle `cycleWith` at those arguments.
-/

namespace Sys2Proof.Machine

@[simp] theorem MachineState.carrying_record (m : MachineState) (c : Option Nat) :
    (m.carrying c).toMachineState = m := rfl
@[simp] theorem MachineState.carrying_stackCap (m : MachineState) (c : Option Nat) : (m.carrying c).stackCap = c := rfl

/-- The record of a machine cycle's answer is the answer of the record's cycle. -/
theorem recordOf_next (t : State) : recordOf (.next t) = some t.toMachineState := rfl

section
variable {s t : State} (h : s.toMachineState = t.toMachineState)
include h

/-- The record a skip leaves depends on the record alone. -/
theorem State.skipIf_record (b : Bool) : (s.skipIf b).toMachineState = (t.skipIf b).toMachineState := by
  cases b with
  | false => exact h
  | true => simp only [State.skipIf, State.setPc, if_true, h]

/-- The record a block load leaves depends on the record alone. -/
theorem State.loadRegs_record (rs : List RegIx) (base : Nat) :
    (s.loadRegs base rs).toMachineState = (t.loadRegs base rs).toMachineState := by
  induction rs generalizing s t with
  | nil => exact h
  | cons r rs ih => exact ih (by simp only [State.setReg, h])

/-- The record a fault leaves depends on the record alone. -/
theorem raiseFault_record (cause : FaultCause) (i : Instr) (info : Option Nat) :
    recordOf (raiseFault cause i info s) = recordOf (raiseFault cause i info t) := by
  simp only [raiseFault, recordOf, State.latch, State.instrAddr, h]

/-- The record a range-checked instruction leaves depends on the record alone. -/
theorem withRange_record (i : Instr) (base n : Nat) {s' t' : State} (h' : s'.toMachineState = t'.toMachineState) :
    recordOf (withRange i base n s s') = recordOf (withRange i base n t t') := by
  unfold withRange
  cases rangeFault base n with
  | some a => exact raiseFault_record h _ _ _
  | none => exact congrArg some h'

/-- The record a key skip leaves depends on the record alone. -/
theorem skipOnKey_record (i : Instr) (x : RegIx) (down : Bool) :
    recordOf (skipOnKey i x down s) = recordOf (skipOnKey i x down t) := by
  obtain ⟨m, d, c⟩ := s
  obtain ⟨n, d', c'⟩ := t
  obtain rfl : m = n := h
  change recordOf (match keyIndex (m.v[x.val]) with | none => _ | some _ => _) =
    recordOf (match keyIndex (m.v[x.val]) with | none => _ | some _ => _)
  cases keyIndex (m.v[x.val]) with
  | none => rfl
  | some k => exact congrArg some (State.skipIf_record (s := ⟨m, d, c⟩) (t := ⟨m, d', c'⟩) rfl _)

end

/-- An instruction's effect on the record depends on the record, P_STACK_CAPACITY and the draw alone. -/
theorem exec_record (i : Instr) {s t : State} (hm : s.toMachineState = t.toMachineState)
    (hc : s.stackCap = t.stackCap) :
    recordOf (exec i s) = recordOf (execWith (Config.randomByte s.draws) i t) := by
  obtain ⟨m, d, c⟩ := s
  obtain ⟨n, d', c'⟩ := t
  obtain rfl : m = n := hm
  obtain rfl : c = c' := hc
  have same : (⟨m, d, c⟩ : State).toMachineState = (⟨m, d', c⟩ : State).toMachineState := rfl
  cases i with
  | call nnn =>
    simp only [exec, execWith, execCall]
    split <;> rfl
  | seImm x nn => exact congrArg some (State.skipIf_record same _)
  | sneImm x nn => exact congrArg some (State.skipIf_record same _)
  | seReg x y => exact congrArg some (State.skipIf_record same _)
  | sneReg x y => exact congrArg some (State.skipIf_record same _)
  | drw x y n => exact withRange_record same _ _ _ rfl
  | skp x => exact skipOnKey_record same _ _ _
  | sknp x => exact skipOnKey_record same _ _ _
  | ret =>
    simp only [exec, execWith, execRet, State.pop]
    cases m.stack.getLast? <;> rfl
  | ldVxK x =>
    change recordOf (match (State.highestKey ⟨m, d, c⟩) with | none => _ | some _ => _) =
      recordOf (match (State.highestKey ⟨m, d, c⟩) with | none => _ | some _ => _)
    cases State.highestKey ⟨m, d, c⟩ <;> rfl
  | ldBVx x => exact withRange_record same _ _ _ rfl
  | ldMiVx x => exact withRange_record same _ _ _ rfl
  | ldVxMi x =>
    refine withRange_record same _ _ _ ?_
    simp only [State.advanceI, State.setI, State.loadRegs_record same]
  | _ => rfl

/-- A cycle of the machine is, on R20's record, the cycle at the arguments the state carries (R40): the two fields
beside the record have no other part in it. -/
theorem step_record (s : State) :
    recordOf (step s) = cycleWith s.stackCap (Config.randomByte s.draws) s.toMachineState := by
  have hf : fetch (s.toMachineState.carrying s.stackCap) = fetch s := rfl
  have hx : (s.toMachineState.carrying s.stackCap).fault = s.fault := rfl
  unfold cycleWith
  rcases step_cases s with ⟨f, h, hs⟩ | ⟨h, a, hw, hs⟩ | ⟨h, w, e, hw, hd, hs⟩ | ⟨h, w, i, hw, hd, hs⟩
  · simp only [hs, cycleBy, hx, h]
  · simp only [hs, cycleBy, hx, h, hf, hw]; rfl
  · simp only [hs, cycleBy, hx, h, hf, hw, hd]; rfl
  · simp only [hs, cycleBy, hx, h, hf, hw, hd]; exact exec_record i rfl rfl

/-- The machine the host runs is the one at the default P_STACK_CAPACITY (R7). -/
theorem core_eq_coreWith : Sys2Proof.core = coreWith none := rfl

end Sys2Proof.Machine
end

