-- ==== Sys2Proof/Laws/Display.lean ====
section
/-!
SUPPORT. Drawing: what one sprite row and a whole sprite do to a canvas (spec rules R122 and R124 of 41_display.md).
-/

namespace Sys2Proof.Machine

/-- Cell `j` lies under a set bit among the first `m` columns of a sprite row. -/
def RowHit (x0 y : Nat) (row : Byte) (m : Nat) (j : CellIx) : Prop :=
  ∃ c, c < m ∧ row.getLsbD (7 - c) = true ∧ j = cellIndex (x0 + c) y

/-- Cell `j` lies under a set bit of a sprite whose first row is row `y`. -/
def RowsHit (x0 y : Nat) (rows : List Byte) (j : CellIx) : Prop :=
  ∃ r c, ∃ h : r < rows.length, c < 8 ∧ rows[r].getLsbD (7 - c) = true ∧ j = cellIndex (x0 + c) (y + r)

/-- The canvas `d` is `c` with exactly the cells of `hit` turned over, and its flag says whether one of them was
set. -/
structure Draws (hit : CellIx → Prop) (c d : Canvas) : Prop where
  turned : ∀ j, hit j → d.1.cell j = !c.1.cell j
  kept : ∀ j, ¬ hit j → d.1.cell j = c.1.cell j
  flag : d.2 = true ↔ c.2 = true ∨ ∃ j, hit j ∧ c.1.cell j = true

theorem Draws.refl {hit : CellIx → Prop} (h : ∀ j, ¬ hit j) (c : Canvas) : Draws hit c c :=
  ⟨fun j hj => absurd hj (h j), fun _ _ => rfl, by simp [h]⟩

theorem Draws.congr {hit hit' : CellIx → Prop} {c d : Canvas} (e : ∀ j, hit j ↔ hit' j) (h : Draws hit c d) :
    Draws hit' c d := by
  have : hit = hit' := funext fun j => propext (e j)
  exact this ▸ h

/-- Two drawings on disjoint cells are one drawing of both. -/
theorem Draws.trans {p q : CellIx → Prop} {a b c : Canvas} (hpq : ∀ j, p j → ¬ q j) (h1 : Draws p a b)
    (h2 : Draws q b c) : Draws (fun j => p j ∨ q j) a c := by
  refine ⟨?_, ?_, ?_⟩
  · rintro j (h | h)
    · rw [h2.kept j (hpq j h), h1.turned j h]
    · rw [h2.turned j h, h1.kept j (fun h' => hpq j h' h)]
  · intro j hj
    rw [not_or] at hj
    rw [h2.kept j hj.2, h1.kept j hj.1]
  · rw [h2.flag, h1.flag]
    constructor
    · rintro ((h | ⟨j, hj, hc⟩) | ⟨j, hj, hc⟩)
      · exact .inl h
      · exact .inr ⟨j, .inl hj, hc⟩
      · exact .inr ⟨j, .inr hj, by rwa [h1.kept j (fun h' => hpq j h' hj)] at hc⟩
    · rintro (h | ⟨j, hj | hj, hc⟩)
      · exact .inl (.inl h)
      · exact .inl (.inr ⟨j, hj, hc⟩)
      · exact .inr ⟨j, hj, by rwa [h1.kept j (fun h' => hpq j h' hj)]⟩

/-- One set sprite bit turns one cell over (R122). -/
theorem flipCell_draws (c : Canvas) (k : CellIx) : Draws (fun j => j = k) c (flipCell c k) := by
  refine ⟨?_, ?_, ?_⟩
  · rintro j rfl
    simp [flipCell, Framebuffer.cell_flip]
  · intro j hj
    simp [flipCell, Framebuffer.cell_flip, hj]
  · simp [flipCell]

/-- Distinct column offsets of a row are distinct cells. -/
theorem cellIndex_inj {x0 y c d : Nat} (hc : c < 8) (hd : d < 8)
    (h : cellIndex (x0 + c) y = cellIndex (x0 + d) y) : c = d := by
  have := congrArg Fin.val h
  simp only [cellIndex] at this
  omega

/-- One sprite row turns over exactly the cells under its set bits (R120, R122). -/
theorem drawRow_draws (x0 y : Nat) (row : Byte) (cv : Canvas) :
    Draws (RowHit x0 y row 8) cv (drawRow x0 y row cv) := by
  have key : ∀ m, m ≤ 8 → Draws (RowHit x0 y row m) cv
      ((List.range m).foldl (fun cv c => if row.getLsbD (7 - c) then flipCell cv (cellIndex (x0 + c) y) else cv) cv) := by
    intro m
    induction m with
    | zero => exact fun _ => Draws.refl (by rintro j ⟨c, hc, -⟩; omega) cv
    | succ m ih =>
      intro hm
      have ih := ih (by omega)
      rw [List.range_succ, List.foldl_append, List.foldl_cons, List.foldl_nil]
      by_cases hb : row.getLsbD (7 - m) = true
      · rw [if_pos hb]
        refine (ih.trans ?_ (flipCell_draws _ (cellIndex (x0 + m) y))).congr fun j => ⟨?_, ?_⟩
        · rintro j ⟨c, hc, -, hj⟩ hk
          have := cellIndex_inj (by omega) (by omega) (hj.symm.trans hk)
          omega
        · rintro (⟨c, hc, h1, h2⟩ | h)
          · exact ⟨c, by omega, h1, h2⟩
          · exact ⟨m, by omega, hb, h⟩
        · rintro ⟨c, hc, h1, h2⟩
          by_cases hcm : c = m
          · exact .inr (hcm ▸ h2)
          · exact .inl ⟨c, by omega, h1, h2⟩
      · rw [if_neg hb]
        refine ih.congr fun j => ⟨?_, ?_⟩
        · rintro ⟨c, hc, h1, h2⟩
          exact ⟨c, by omega, h1, h2⟩
        · rintro ⟨c, hc, h1, h2⟩
          by_cases hcm : c = m
          · exact absurd (hcm ▸ h1) hb
          · exact ⟨c, by omega, h1, h2⟩
  exact key 8 (le_refl 8)

/-- A sprite of at most 32 rows turns over exactly the cells under its set bits: no row meets another (R122). -/
theorem drawRows_draws (x0 : Nat) (rows : List Byte) (y : Nat) (cv : Canvas) (hl : rows.length ≤ 32) :
    Draws (RowsHit x0 y rows) cv (drawRows x0 y rows cv) := by
  induction rows generalizing y cv with
  | nil => exact Draws.refl (by rintro j ⟨r, c, h, -⟩; simp at h) cv
  | cons row rows ih =>
    rw [List.length_cons] at hl
    rw [drawRows]
    refine ((drawRow_draws x0 y row cv).trans ?_ (ih (y + 1) _ (by omega))).congr fun j => ⟨?_, ?_⟩
    · rintro j ⟨c, hc, -, h2⟩ ⟨r, d, h, hd, -, h4⟩
      have := congrArg Fin.val (h2.symm.trans h4)
      simp only [cellIndex] at this
      omega
    · rintro (⟨c, hc, h1, h2⟩ | ⟨r, c, h, hc, h1, h2⟩)
      · exact ⟨0, c, by simp, hc, by simpa using h1, by simpa using h2⟩
      · exact ⟨r + 1, c, by simpa using h, hc, by simpa using h1, h2.trans (by congr 1; omega)⟩
    · rintro ⟨r, c, h, hc, h1, h2⟩
      cases r with
      | zero => exact .inl ⟨c, hc, by simpa using h1, by simpa using h2⟩
      | succ r => exact .inr ⟨r, c, by simpa using h, hc, by simpa using h1, h2.trans (by congr 1; omega)⟩

end Sys2Proof.Machine
end

