-- ==== Sys2Proof/Laws/PerInstr.lean ====
section
/-!
SUPPORT. Per instruction: its word has the fixed bits of its row of spec/opcode_table.json (spec rule R82), whatever
its operands.
-/

namespace Sys2Proof

/-- The `mask` and `match` columns of an instruction's row of the opcode table (R82). -/
def tableBits : Instr → Word × Word
  | .sys _ => (0xF000#16, 0x0000#16)
  | .cls => (0xFFFF#16, 0x00E0#16)
  | .ret => (0xFFFF#16, 0x00EE#16)
  | .jp _ => (0xF000#16, 0x1000#16)
  | .call _ => (0xF000#16, 0x2000#16)
  | .seImm _ _ => (0xF000#16, 0x3000#16)
  | .sneImm _ _ => (0xF000#16, 0x4000#16)
  | .seReg _ _ => (0xF00F#16, 0x5000#16)
  | .ldImm _ _ => (0xF000#16, 0x6000#16)
  | .addImm _ _ => (0xF000#16, 0x7000#16)
  | .ldReg _ _ => (0xF00F#16, 0x8000#16)
  | .orReg _ _ => (0xF00F#16, 0x8001#16)
  | .andReg _ _ => (0xF00F#16, 0x8002#16)
  | .xorReg _ _ => (0xF00F#16, 0x8003#16)
  | .addReg _ _ => (0xF00F#16, 0x8004#16)
  | .sub _ _ => (0xF00F#16, 0x8005#16)
  | .shr _ _ => (0xF00F#16, 0x8006#16)
  | .subn _ _ => (0xF00F#16, 0x8007#16)
  | .shl _ _ => (0xF00F#16, 0x800E#16)
  | .sneReg _ _ => (0xF00F#16, 0x9000#16)
  | .ldI _ => (0xF000#16, 0xA000#16)
  | .jpV0 _ => (0xF000#16, 0xB000#16)
  | .rnd _ _ => (0xF000#16, 0xC000#16)
  | .drw _ _ _ => (0xF000#16, 0xD000#16)
  | .skp _ => (0xF0FF#16, 0xE09E#16)
  | .sknp _ => (0xF0FF#16, 0xE0A1#16)
  | .ldVxDt _ => (0xF0FF#16, 0xF007#16)
  | .ldVxK _ => (0xF0FF#16, 0xF00A#16)
  | .ldDtVx _ => (0xF0FF#16, 0xF015#16)
  | .ldStVx _ => (0xF0FF#16, 0xF018#16)
  | .addIVx _ => (0xF0FF#16, 0xF01E#16)
  | .ldFVx _ => (0xF0FF#16, 0xF029#16)
  | .ldBVx _ => (0xF0FF#16, 0xF033#16)
  | .ldMiVx _ => (0xF0FF#16, 0xF055#16)
  | .ldVxMi _ => (0xF0FF#16, 0xF065#16)

theorem nibble_and_ones (t : Nibble) : t &&& 0xF#4 = t := by
  revert t
  decide

theorem byte_and_ones (b : Byte) : b &&& 0xFF#8 = b := by
  revert b
  decide

theorem byte_and_high (t u : Nibble) : (t ++ u : BitVec 8) &&& 0xF0#8 = t ++ 0#4 := by
  revert t u
  decide

theorem byte_and_low (t u : Nibble) : (t ++ u : BitVec 8) &&& 0x0F#8 = 0#4 ++ u := by
  revert t u
  decide

/-- The top nibble of a word of shape `T_NNN` (R75). -/
theorem wordNNN_bits (t : Nibble) (nnn : Imm12) : wordNNN t nnn &&& 0xF000#16 = t ++ 0#12 :=
  (BitVec.and_append (x₂ := 0xF#4) (y₂ := 0#12)).trans (by rw [nibble_and_ones, BitVec.and_zero])

/-- The top nibble of a word whose high byte begins with it (R75). -/
theorem byte_append_bits (t u : Nibble) (b : Byte) :
    ((t ++ u : BitVec 8) ++ b : BitVec 16) &&& 0xF000#16 = ((t ++ 0#4 : BitVec 8) ++ 0#8 : BitVec 16) :=
  (BitVec.and_append (x₂ := 0xF0#8) (y₂ := 0#8)).trans (by rw [byte_and_high, BitVec.and_zero])

/-- The top nibble of a word of shape `T_XNN` (R75). -/
theorem wordXNN_bits (t : Nibble) (x : RegIx) (nn : Byte) :
    wordXNN t x nn &&& 0xF000#16 = ((t ++ 0#4 : BitVec 8) ++ 0#8 : BitVec 16) :=
  byte_append_bits t _ nn

/-- The top nibble of a word of shape `T_XYN` (R75). -/
theorem wordXYN_bits (t : Nibble) (x y : RegIx) (n : Nibble) :
    wordXYN t x y n &&& 0xF000#16 = ((t ++ 0#4 : BitVec 8) ++ 0#8 : BitVec 16) :=
  byte_append_bits t _ _

/-- The fixed bits of a word of shape `T_X_NN` (R75). -/
theorem wordXNN_fixed (t : Nibble) (x : RegIx) (nn : Byte) :
    wordXNN t x nn &&& 0xF0FF#16 = ((t ++ 0#4 : BitVec 8) ++ nn : BitVec 16) :=
  (BitVec.and_append (x₂ := 0xF0#8) (y₂ := 0xFF#8)).trans (by rw [byte_and_high, byte_and_ones])

/-- The fixed bits of a word of shape `T_XYN` with N fixed (R75). -/
theorem wordXYN_fixed (t : Nibble) (x y : RegIx) (n : Nibble) :
    wordXYN t x y n &&& 0xF00F#16 = ((t ++ 0#4 : BitVec 8) ++ (0#4 ++ n : BitVec 8) : BitVec 16) :=
  (BitVec.and_append (x₂ := 0xF0#8) (y₂ := 0x0F#8)).trans (by rw [byte_and_high, byte_and_low])

namespace Laws.EncodingMatchesTable

/-- The instruction's word has its row's fixed bits. -/
def Statement (i : Instr) : Prop := encode i &&& (tableBits i).1 = (tableBits i).2

theorem sys (nnn : Imm12) : Statement (.sys nnn) := wordNNN_bits _ _
theorem cls : Statement .cls := rfl
theorem ret : Statement .ret := rfl
theorem jp (nnn : Imm12) : Statement (.jp nnn) := wordNNN_bits _ _
theorem call (nnn : Imm12) : Statement (.call nnn) := wordNNN_bits _ _
theorem seImm (x : RegIx) (nn : Byte) : Statement (.seImm x nn) := wordXNN_bits _ _ _
theorem sneImm (x : RegIx) (nn : Byte) : Statement (.sneImm x nn) := wordXNN_bits _ _ _
theorem seReg (x y : RegIx) : Statement (.seReg x y) := wordXYN_fixed _ _ _ _
theorem ldImm (x : RegIx) (nn : Byte) : Statement (.ldImm x nn) := wordXNN_bits _ _ _
theorem addImm (x : RegIx) (nn : Byte) : Statement (.addImm x nn) := wordXNN_bits _ _ _
theorem ldReg (x y : RegIx) : Statement (.ldReg x y) := wordXYN_fixed _ _ _ _
theorem orReg (x y : RegIx) : Statement (.orReg x y) := wordXYN_fixed _ _ _ _
theorem andReg (x y : RegIx) : Statement (.andReg x y) := wordXYN_fixed _ _ _ _
theorem xorReg (x y : RegIx) : Statement (.xorReg x y) := wordXYN_fixed _ _ _ _
theorem addReg (x y : RegIx) : Statement (.addReg x y) := wordXYN_fixed _ _ _ _
theorem sub (x y : RegIx) : Statement (.sub x y) := wordXYN_fixed _ _ _ _
theorem shr (x y : RegIx) : Statement (.shr x y) := wordXYN_fixed _ _ _ _
theorem subn (x y : RegIx) : Statement (.subn x y) := wordXYN_fixed _ _ _ _
theorem shl (x y : RegIx) : Statement (.shl x y) := wordXYN_fixed _ _ _ _
theorem sneReg (x y : RegIx) : Statement (.sneReg x y) := wordXYN_fixed _ _ _ _
theorem ldI (nnn : Imm12) : Statement (.ldI nnn) := wordNNN_bits _ _
theorem jpV0 (nnn : Imm12) : Statement (.jpV0 nnn) := wordNNN_bits _ _
theorem rnd (x : RegIx) (nn : Byte) : Statement (.rnd x nn) := wordXNN_bits _ _ _
theorem drw (x y : RegIx) (n : Nibble) : Statement (.drw x y n) := wordXYN_bits _ _ _ _
theorem skp (x : RegIx) : Statement (.skp x) := wordXNN_fixed _ _ _
theorem sknp (x : RegIx) : Statement (.sknp x) := wordXNN_fixed _ _ _
theorem ldVxDt (x : RegIx) : Statement (.ldVxDt x) := wordXNN_fixed _ _ _
theorem ldVxK (x : RegIx) : Statement (.ldVxK x) := wordXNN_fixed _ _ _
theorem ldDtVx (x : RegIx) : Statement (.ldDtVx x) := wordXNN_fixed _ _ _
theorem ldStVx (x : RegIx) : Statement (.ldStVx x) := wordXNN_fixed _ _ _
theorem addIVx (x : RegIx) : Statement (.addIVx x) := wordXNN_fixed _ _ _
theorem ldFVx (x : RegIx) : Statement (.ldFVx x) := wordXNN_fixed _ _ _
theorem ldBVx (x : RegIx) : Statement (.ldBVx x) := wordXNN_fixed _ _ _
theorem ldMiVx (x : RegIx) : Statement (.ldMiVx x) := wordXNN_fixed _ _ _
theorem ldVxMi (x : RegIx) : Statement (.ldVxMi x) := wordXNN_fixed _ _ _

end Laws.EncodingMatchesTable

end Sys2Proof
end

