-- ==== Sys2Proof/Laws/Encoding.lean ====
section
/-!
SUPPORT. Fields and words as arithmetic: each field of a word as a quotient and a remainder, what a masked word fixes,
and the words of the instructions that can fault as numbers.
-/

namespace Sys2Proof.Machine

/-! ### Fields (R12) -/

@[simp] theorem nibbleX_val (w : Word) : (nibbleX w).val = w.toNat / 256 % 16 := rfl

@[simp] theorem nibbleY_val (w : Word) : (nibbleY w).val = w.toNat / 16 % 16 := rfl

@[simp] theorem lowNibble_toNat (w : Word) : (lowNibble w).toNat = w.toNat % 16 := by simp [lowNibble]

@[simp] theorem lowByte_toNat (w : Word) : (lowByte w).toNat = w.toNat % 256 := by simp [lowByte]

@[simp] theorem lowAddr_toNat (w : Word) : (lowAddr w).toNat = w.toNat % 4096 := by simp [lowAddr]

theorem fieldX_eq (w : Word) : fieldX w = nibbleX w := by
  apply Fin.ext
  simp [fieldX, Nat.shiftRight_eq_div_pow]

theorem fieldY_eq (w : Word) : fieldY w = nibbleY w := by
  apply Fin.ext
  simp [fieldY, Nat.shiftRight_eq_div_pow]

theorem fieldN_eq (w : Word) : fieldN w = lowNibble w := by
  apply BitVec.eq_of_toNat_eq
  simp [fieldN]

theorem fieldNN_eq (w : Word) : fieldNN w = lowByte w := by
  apply BitVec.eq_of_toNat_eq
  simp [fieldNN]

theorem fieldNNN_eq (w : Word) : fieldNNN w = lowAddr w := by
  apply BitVec.eq_of_toNat_eq
  simp [fieldNNN]

theorem fieldT_toNat (w : Word) : (fieldT w).toNat = w.toNat / 4096 := by
  have := w.isLt
  simp [fieldT, Nat.shiftRight_eq_div_pow]
  omega

/-! ### What a mask fixes (R82) -/

theorem fieldT_of_mask_F000 {w p : Word} (h : w &&& 0xF000#16 = p) : fieldT w = fieldT p := by
  subst h
  simp [fieldT, BitVec.extractLsb'_and, nibble_and_ones]

theorem fieldT_of_mask_F00F {w p : Word} (h : w &&& 0xF00F#16 = p) : fieldT w = fieldT p := by
  subst h
  simp [fieldT, BitVec.extractLsb'_and, nibble_and_ones]

theorem fieldN_of_mask_F00F {w p : Word} (h : w &&& 0xF00F#16 = p) : fieldN w = fieldN p := by
  subst h
  simp [fieldN, BitVec.extractLsb'_and, nibble_and_ones]

theorem fieldT_of_mask_F0FF {w p : Word} (h : w &&& 0xF0FF#16 = p) : fieldT w = fieldT p := by
  subst h
  simp [fieldT, BitVec.extractLsb'_and, nibble_and_ones]

theorem fieldNN_of_mask_F0FF {w p : Word} (h : w &&& 0xF0FF#16 = p) : fieldNN w = fieldNN p := by
  subst h
  simp [fieldNN, BitVec.extractLsb'_and, byte_and_ones]

/-! ### Words as numbers (R54, R75) -/

theorem wordOfBytes_toNat (hi lo : Byte) : (wordOfBytes hi lo).toNat = 256 * hi.toNat + lo.toNat := by
  have h1 := hi.isLt
  have h2 := lo.isLt
  simp only [wordOfBytes, BitVec.toNat_or, BitVec.toNat_shiftLeft, BitVec.toNat_setWidth, Nat.shiftLeft_eq]
  rw [Nat.mod_eq_of_lt (a := hi.toNat) (by omega), Nat.mod_eq_of_lt (a := lo.toNat) (by omega),
    Nat.mod_eq_of_lt (by omega), Nat.mul_comm, ← Nat.two_pow_add_eq_or_of_lt (i := 8) (by omega)]

/-- A concatenation as a number. -/
theorem append_toNat {m n : Nat} (a : BitVec m) (b : BitVec n) : (a ++ b).toNat = 2 ^ n * a.toNat + b.toNat := by
  rw [BitVec.toNat_append, Nat.shiftLeft_eq, Nat.mul_comm, ← Nat.two_pow_add_eq_or_of_lt b.isLt]

theorem wordNNN_toNat (t : Nibble) (nnn : Imm12) : (wordNNN t nnn).toNat = 4096 * t.toNat + nnn.toNat :=
  append_toNat t nnn

theorem wordXNN_toNat (t : Nibble) (x : RegIx) (nn : Byte) :
    (wordXNN t x nn).toNat = 4096 * t.toNat + 256 * x.val + nn.toNat := by
  have h1 : (wordXNN t x nn).toNat = 256 * (t ++ BitVec.ofFin (w := 4) x : BitVec 8).toNat + nn.toNat :=
    append_toNat (t ++ BitVec.ofFin (w := 4) x : BitVec 8) nn
  have h2 : (t ++ BitVec.ofFin (w := 4) x : BitVec 8).toNat = 16 * t.toNat + x.val := append_toNat t _
  omega

theorem wordXYN_toNat (t : Nibble) (x y : RegIx) (n : Nibble) :
    (wordXYN t x y n).toNat = 4096 * t.toNat + 256 * x.val + 16 * y.val + n.toNat := by
  have h1 : (wordXYN t x y n).toNat =
      4096 * t.toNat + 256 * x.val + (BitVec.ofFin (w := 4) y ++ n : BitVec 8).toNat :=
    wordXNN_toNat t x (BitVec.ofFin (w := 4) y ++ n : BitVec 8)
  have h2 : (BitVec.ofFin (w := 4) y ++ n : BitVec 8).toNat = 16 * y.val + n.toNat := append_toNat _ n
  omega

/-- A word is the number it stands for. -/
theorem word_eq_ofNat {w : Word} {k : Nat} (h : w.toNat = k) : w = BitVec.ofNat 16 k := by
  subst h
  simp

theorem encode_call (nnn : Imm12) : encode (.call nnn) = BitVec.ofNat 16 (0x2000 + nnn.toNat) :=
  word_eq_ofNat (wordNNN_toNat 2#4 nnn)

theorem encode_skp (x : RegIx) : encode (.skp x) = BitVec.ofNat 16 (0xE09E + 256 * x.val) :=
  word_eq_ofNat ((wordXNN_toNat 0xE#4 x 0x9E#8).trans (by simp; omega))

theorem encode_sknp (x : RegIx) : encode (.sknp x) = BitVec.ofNat 16 (0xE0A1 + 256 * x.val) :=
  word_eq_ofNat ((wordXNN_toNat 0xE#4 x 0xA1#8).trans (by simp; omega))

theorem encode_ldBVx (x : RegIx) : encode (.ldBVx x) = BitVec.ofNat 16 (0xF033 + 256 * x.val) :=
  word_eq_ofNat ((wordXNN_toNat 0xF#4 x 0x33#8).trans (by simp; omega))

theorem encode_ldMiVx (x : RegIx) : encode (.ldMiVx x) = BitVec.ofNat 16 (0xF055 + 256 * x.val) :=
  word_eq_ofNat ((wordXNN_toNat 0xF#4 x 0x55#8).trans (by simp; omega))

theorem encode_ldVxMi (x : RegIx) : encode (.ldVxMi x) = BitVec.ofNat 16 (0xF065 + 256 * x.val) :=
  word_eq_ofNat ((wordXNN_toNat 0xF#4 x 0x65#8).trans (by simp; omega))

theorem encode_drw (x y : RegIx) (n : Nibble) :
    encode (.drw x y n) = BitVec.ofNat 16 (0xD000 + 256 * x.val + 16 * y.val + n.toNat) :=
  word_eq_ofNat ((wordXYN_toNat 0xD#4 x y n).trans (by simp))

end Sys2Proof.Machine
end

