-- ==== Sys2Proof/Tests/Slice0.lean ====
section
/-!
SUPPORT. Tests. The expected values are those of spec/95_test_vectors.md (the vector's number stands at each test),
worked out from the rules and not by this model; the decode tests spell the word out from the `encoding` column of
spec rule R82. The last part shows, for every statement with hypotheses, states and operands that meet them.
-/

namespace Sys2Proof.Tests

open Sys2Proof Sys2Proof.Machine

/-! ### Helpers -/

/-- The load state of an empty image with these registers written. -/
def withRegs (l : List (RegIx × Byte)) : State := l.foldl (fun s p => s.setReg p.1 p.2) State.reset

/-- What `f` sees one cycle after the word `w` is placed at the pc of `s`. -/
def after {α : Type} (s : State) (w : Nat) (f : State → α) : Option α :=
  match step (s.withFetchWord 16 w) with
  | .next t => some (f t)
  | .fault _ => none
  | .refused _ => none

/-- A state with one key down. -/
def withKey (k : RegIx) (s : State) : State := { s with key := s.key.set k.val true }

/-! ### Ill-formed terms are refused, well-formed ones are not -/

theorem test_sys_00E0_ill_formed : (Instr.sys 0x0E0#12).WellFormed = false := by decide

theorem test_sys_00EE_ill_formed : (Instr.sys 0x0EE#12).WellFormed = false := by decide

theorem test_sys_well_formed : (Instr.sys 0x0E1#12).WellFormed = true := by decide

/-! ### One word of each row, bit by bit -/

theorem test_decode_sys : decodeWord 0b0000000100100011#16 = .ok (.sys 0x123#12) := by decide

theorem test_decode_cls : decodeWord 0b0000000011100000#16 = .ok .cls := by decide

theorem test_decode_ret : decodeWord 0b0000000011101110#16 = .ok .ret := by decide

theorem test_decode_jp : decodeWord 0b0001101010111100#16 = .ok (.jp 0xABC#12) := by decide

theorem test_decode_call : decodeWord 0b0010101010111100#16 = .ok (.call 0xABC#12) := by decide

theorem test_decode_seImm : decodeWord 0b0011001101000010#16 = .ok (.seImm 3 0x42#8) := by decide

theorem test_decode_sneImm : decodeWord 0b0100001101000010#16 = .ok (.sneImm 3 0x42#8) := by decide

theorem test_decode_seReg : decodeWord 0b0101000100100000#16 = .ok (.seReg 1 2) := by decide

theorem test_decode_ldImm : decodeWord 0b0110101010011100#16 = .ok (.ldImm 10 0x9C#8) := by decide

theorem test_decode_addImm : decodeWord 0b0111000111111111#16 = .ok (.addImm 1 0xFF#8) := by decide

theorem test_decode_ldReg : decodeWord 0b1000000100100000#16 = .ok (.ldReg 1 2) := by decide

theorem test_decode_orReg : decodeWord 0b1000000100100001#16 = .ok (.orReg 1 2) := by decide

theorem test_decode_andReg : decodeWord 0b1000000100100010#16 = .ok (.andReg 1 2) := by decide

theorem test_decode_xorReg : decodeWord 0b1000000100100011#16 = .ok (.xorReg 1 2) := by decide

theorem test_decode_addReg : decodeWord 0b1000000100100100#16 = .ok (.addReg 1 2) := by decide

theorem test_decode_sub : decodeWord 0b1000000100100101#16 = .ok (.sub 1 2) := by decide

theorem test_decode_shr : decodeWord 0b1000000100100110#16 = .ok (.shr 1 2) := by decide

theorem test_decode_subn : decodeWord 0b1000000100100111#16 = .ok (.subn 1 2) := by decide

theorem test_decode_shl : decodeWord 0b1000000100101110#16 = .ok (.shl 1 2) := by decide

theorem test_decode_sneReg : decodeWord 0b1001000100100000#16 = .ok (.sneReg 1 2) := by decide

theorem test_decode_ldI : decodeWord 0b1010001100000001#16 = .ok (.ldI 0x301#12) := by decide

theorem test_decode_jpV0 : decodeWord 0b1011001100010010#16 = .ok (.jpV0 0x312#12) := by decide

theorem test_decode_rnd : decodeWord 0b1100001100001111#16 = .ok (.rnd 3 0x0F#8) := by decide

theorem test_decode_drw : decodeWord 0b1101000101000101#16 = .ok (.drw 1 4 5#4) := by decide

theorem test_decode_skp : decodeWord 0b1110010110011110#16 = .ok (.skp 5) := by decide

theorem test_decode_sknp : decodeWord 0b1110010110100001#16 = .ok (.sknp 5) := by decide

theorem test_decode_ldVxDt : decodeWord 0b1111011000000111#16 = .ok (.ldVxDt 6) := by decide

theorem test_decode_ldVxK : decodeWord 0b1111010100001010#16 = .ok (.ldVxK 5) := by decide

theorem test_decode_ldDtVx : decodeWord 0b1111011100010101#16 = .ok (.ldDtVx 7) := by decide

theorem test_decode_ldStVx : decodeWord 0b1111010000011000#16 = .ok (.ldStVx 4) := by decide

theorem test_decode_addIVx : decodeWord 0b1111001000011110#16 = .ok (.addIVx 2) := by decide

theorem test_decode_ldFVx : decodeWord 0b1111001000101001#16 = .ok (.ldFVx 2) := by decide

theorem test_decode_ldBVx : decodeWord 0b1111101000110011#16 = .ok (.ldBVx 10) := by decide

theorem test_decode_ldMiVx : decodeWord 0b1111000101010101#16 = .ok (.ldMiVx 1) := by decide

theorem test_decode_ldVxMi : decodeWord 0b1111001001100101#16 = .ok (.ldVxMi 2) := by decide

/-- V6: 0x8FFF is no operation. -/
theorem test_decode_8FFF : decodeWord 0x8FFF#16 = .error (.noOperation 0x8FFF#16) := by decide

/-- One byte is no instruction (R75). -/
theorem test_decode_truncated : decodeBytes [0x12#8] = .error .truncated := by decide

/-- The table's number of a word is the word (R75, R84): 0x3342 is SE V3, 0x42. -/
theorem test_table_word : decodeTableWord 16 0x3342 = some (.seImm 3 0x42#8) := by decide

/-- R54: the high byte of a placed word lies at the lower address. -/
theorem test_placed_word : (State.reset.withFetchWord 16 0x1ABC).mem = [(0x200, 0x1A#8), (0x201, 0xBC#8)] := by decide

/-! ### One step of each instruction -/

/-- V20. -/
theorem test_jp :
    after State.reset 0x1ABC (fun t => t.pc) = some 0xABC#16 := by decide

/-- V2. -/
theorem test_fetch_odd_pc :
    after { State.reset with pc := 0x201#16 } 0x6055 (fun t => (t.pc, t.reg 0)) = some (0x203#16, 0x55#8) := by decide

/-- V12. -/
theorem test_sys_not_cls :
    after { State.reset with fb := State.reset.fb.set 0 1#64 } 0x01E0 (fun t => (t.pc, t.fb[0])) = some (0x202#16, 1#64) := by decide

/-- V13. -/
theorem test_sys_not_ret :
    after State.reset 0x0FEE (fun t => (t.pc, t.fault)) = some (0x202#16, none) := by decide

/-- V6. -/
theorem test_decode_error_cycle :
    after (withRegs [(1, 0x12#8), (vf, 0x34#8)]) 0x8FFF (fun t => (t.pc, t.reg 1, t.reg vf, t.fault)) = some (0x202#16, 0x12#8, 0x34#8, none) := by decide

/-- V22. -/
theorem test_call :
    after State.reset 0x2ABC (fun t => (t.pc, t.stack)) = some (0xABC#16, [0x202#16]) := by decide

/-- V24. -/
theorem test_call_overflow :
    after { State.reset with stackCap := some 2, stack := [0x300#16, 0x302#16] } 0x2ABC (fun t => (t.pc, t.stack, t.fault)) = some (0x202#16, [0x300#16, 0x302#16], some ⟨.stackOverflow, 0x200#16, some 0x2ABC#16, none⟩) := by decide

/-- V26. -/
theorem test_ret :
    after { State.reset with stack := [0x206#16, 0x40A#16] } 0x00EE (fun t => (t.pc, t.stack)) = some (0x40A#16, [0x206#16]) := by decide

/-- V27. -/
theorem test_ret_underflow :
    after State.reset 0x00EE (fun t => (t.pc, t.fault)) = some (0x202#16, some ⟨.stackUnderflow, 0x200#16, some 0x00EE#16, none⟩) := by decide

/-- V29. -/
theorem test_jpV0_not_vx :
    after (withRegs [(0, 0x01#8), (3, 0x09#8)]) 0xB312 (fun t => t.pc) = some 0x313#16 := by decide

/-- V30. -/
theorem test_jpV0_past_memory :
    after (withRegs [(0, 0xFF#8)]) 0xBF01 (fun t => (t.pc, t.fault)) = some (0x1000#16, none) := by decide

/-- V40. -/
theorem test_cls :
    after { withRegs [(vf, 0x07#8)] with fb := (State.reset.fb.set 0 1#64).set 31 (1#64 <<< 63) } 0x00E0 (fun t => (t.pc, t.reg vf, t.fb[0], t.fb[31])) = some (0x202#16, 0x07#8, 0#64, 0#64) := by decide

/-- V43. -/
theorem test_drw_wraps_columns :
    after { withRegs [(0, 0x3C#8)] with i := 0x300#16, mem := [(0x300, 0xFF#8)] } 0xD011 (fun t => (t.pc, t.fb[0], t.fb[1], t.reg vf)) = some (0x202#16, 0xF00000000000000F#64, 0#64, 0#8) := by decide

/-- V42. -/
theorem test_drw_collision :
    after { State.reset with fb := State.reset.fb.set 0 1#64 } 0xD015 (fun t => (t.reg vf, t.fb.toList.take 6)) = some (1#8, [0xE#64, 0x9#64, 0x9#64, 0x9#64, 0xF#64, 0#64]) := by decide

/-- V60. -/
theorem test_seImm :
    after (withRegs [(3, 0x42#8)]) 0x3342 (fun t => t.pc) = some 0x204#16 := by decide

/-- V61. -/
theorem test_seImm_differ :
    after (withRegs [(3, 0x42#8)]) 0x3343 (fun t => t.pc) = some 0x202#16 := by decide

/-- V63. -/
theorem test_sneImm :
    after (withRegs [(3, 0x42#8)]) 0x4343 (fun t => t.pc) = some 0x204#16 := by decide

/-- V62. -/
theorem test_sneImm_equal :
    after (withRegs [(3, 0x42#8)]) 0x4342 (fun t => t.pc) = some 0x202#16 := by decide

/-- V64. -/
theorem test_seReg :
    after (withRegs [(1, 0x07#8), (2, 0x07#8)]) 0x5120 (fun t => t.pc) = some 0x204#16 := by decide

/-- V65. -/
theorem test_seReg_differ :
    after (withRegs [(1, 0x07#8), (2, 0x08#8)]) 0x5120 (fun t => t.pc) = some 0x202#16 := by decide

/-- V66. -/
theorem test_sneReg :
    after (withRegs [(1, 0x07#8), (2, 0x08#8)]) 0x9120 (fun t => t.pc) = some 0x204#16 := by decide

/-- V67. -/
theorem test_sneReg_same :
    after (withRegs [(1, 0x07#8)]) 0x9110 (fun t => t.pc) = some 0x202#16 := by decide

/-- V68. -/
theorem test_skp :
    after (withKey 10 (withRegs [(5, 0x0A#8)])) 0xE59E (fun t => t.pc) = some 0x204#16 := by decide

/-- V72. -/
theorem test_skp_index :
    after (withRegs [(5, 0x10#8)]) 0xE59E (fun t => (t.pc, t.fault)) = some (0x202#16, some ⟨.keyIndexOutOfRange, 0x200#16, some 0xE59E#16, some 0x10⟩) := by decide

/-- V70. -/
theorem test_sknp :
    after (withRegs [(5, 0x0A#8)]) 0xE5A1 (fun t => t.pc) = some 0x204#16 := by decide

/-- V71. -/
theorem test_sknp_pressed :
    after (withKey 10 (withRegs [(5, 0x0A#8)])) 0xE5A1 (fun t => t.pc) = some 0x202#16 := by decide

/-- V80. -/
theorem test_ldImm :
    after State.reset 0x6A9C (fun t => (t.pc, t.reg 10)) = some (0x202#16, 0x9C#8) := by decide

/-- V81. -/
theorem test_addImm_wraps :
    after (withRegs [(1, 0xFF#8), (vf, 0x03#8)]) 0x7101 (fun t => (t.reg 1, t.reg vf)) = some (0x00#8, 0x03#8) := by decide

/-- V83. -/
theorem test_ldReg :
    after (withRegs [(2, 0x33#8)]) 0x8120 (fun t => (t.reg 1, t.reg 2)) = some (0x33#8, 0x33#8) := by decide

/-- V84. -/
theorem test_orReg :
    after (withRegs [(1, 0xF0#8), (2, 0x0F#8), (vf, 0x07#8)]) 0x8121 (fun t => (t.reg 1, t.reg vf)) = some (0xFF#8, 0x07#8) := by decide

/-- V85. -/
theorem test_andReg :
    after (withRegs [(1, 0xF0#8), (2, 0x3C#8), (vf, 0x07#8)]) 0x8122 (fun t => (t.reg 1, t.reg vf)) = some (0x30#8, 0x07#8) := by decide

/-- V86. -/
theorem test_xorReg :
    after (withRegs [(1, 0xF0#8), (2, 0x3C#8), (vf, 0x07#8)]) 0x8123 (fun t => (t.reg 1, t.reg vf)) = some (0xCC#8, 0x07#8) := by decide

/-- V88. -/
theorem test_addReg_carry :
    after (withRegs [(1, 0xFF#8), (2, 0x01#8)]) 0x8124 (fun t => (t.reg 1, t.reg vf)) = some (0x00#8, 0x01#8) := by decide

/-- V91. -/
theorem test_addReg_vf_destination :
    after (withRegs [(vf, 0x80#8), (1, 0x90#8)]) 0x8F14 (fun t => t.reg vf) = some 0x01#8 := by decide

/-- V93. -/
theorem test_sub_borrow :
    after (withRegs [(1, 0x05#8), (2, 0x07#8), (vf, 0x07#8)]) 0x8125 (fun t => (t.reg 1, t.reg vf)) = some (0xFE#8, 0x00#8) := by decide

/-- V94. -/
theorem test_sub_equal :
    after (withRegs [(1, 0x07#8), (2, 0x07#8)]) 0x8125 (fun t => (t.reg 1, t.reg vf)) = some (0x00#8, 0x01#8) := by decide

/-- V101. -/
theorem test_shr_ignores_vy :
    after (withRegs [(1, 0x03#8), (2, 0x80#8)]) 0x8126 (fun t => (t.reg 1, t.reg vf)) = some (0x01#8, 0x01#8) := by decide

/-- V102. -/
theorem test_shr_vf_destination :
    after (withRegs [(vf, 0x05#8)]) 0x8F06 (fun t => t.reg vf) = some 0x02#8 := by decide

/-- V97. -/
theorem test_subn :
    after (withRegs [(1, 0x05#8), (2, 0x07#8)]) 0x8127 (fun t => (t.reg 1, t.reg vf)) = some (0x02#8, 0x01#8) := by decide

/-- V98. -/
theorem test_subn_borrow :
    after (withRegs [(1, 0x01#8), (vf, 0x07#8)]) 0x8127 (fun t => (t.reg 1, t.reg vf)) = some (0xFF#8, 0x00#8) := by decide

/-- V103. -/
theorem test_shl :
    after (withRegs [(1, 0x81#8)]) 0x810E (fun t => (t.reg 1, t.reg vf)) = some (0x02#8, 0x01#8) := by decide

/-- V105. -/
theorem test_shl_vf_destination :
    after (withRegs [(vf, 0x81#8)]) 0x8F0E (fun t => t.reg vf) = some 0x02#8 := by decide

/-- V120. -/
theorem test_ldI :
    after State.reset 0xA300 (fun t => (t.pc, t.i)) = some (0x202#16, 0x300#16) := by decide

/-- V122. -/
theorem test_addIVx_past_memory :
    after { withRegs [(0, 0x01#8)] with i := 0xFFF#16 } 0xF01E (fun t => (t.i, t.reg vf, t.fault)) = some (0x1000#16, 0#8, none) := by decide

/-- V123. -/
theorem test_addIVx_wraps :
    after { withRegs [(0, 0x01#8)] with i := 0xFFFF#16 } 0xF01E (fun t => t.i) = some 0#16 := by decide

/-- V124. -/
theorem test_ldFVx :
    after (withRegs [(2, 0x07#8)]) 0xF229 (fun t => t.i) = some 0x023#16 := by decide

/-- V126. -/
theorem test_ldFVx_no_mask :
    after (withRegs [(2, 0xFF#8)]) 0xF229 (fun t => t.i) = some 0x4FB#16 := by decide

/-- V128. -/
theorem test_ldBVx :
    after { withRegs [(0, 0xFF#8)] with i := 0x300#16 } 0xF033 (fun t => (t.i, readBlock t.mem 0x300 3)) = some (0x300#16, [2#8, 5#8, 5#8]) := by decide

/-- V130. -/
theorem test_ldBVx_range :
    after { withRegs [(0, 0xFF#8)] with i := 0xFFE#16 } 0xF033 (fun t => (t.mem.read 0xFFE, t.fault)) = some (0#8, some ⟨.memoryOutOfRange, 0x200#16, some 0xF033#16, some 0x1000⟩) := by decide

/-- V131. -/
theorem test_ldMiVx :
    after { withRegs [(0, 0x01#8), (1, 0x02#8)] with i := 0x300#16 } 0xF155 (fun t => (t.i, readBlock t.mem 0x300 3)) = some (0x302#16, [1#8, 2#8, 0#8]) := by decide

/-- V134. -/
theorem test_ldMiVx_range :
    after { State.reset with i := 0xFF1#16 } 0xFF55 (fun t => (t.i, t.fault)) = some (0xFF1#16, some ⟨.memoryOutOfRange, 0x200#16, some 0xFF55#16, some 0x1000⟩) := by decide

/-- V135. -/
theorem test_ldVxMi :
    after { withRegs [(3, 0x77#8)] with i := 0x300#16, mem := [(0x300, 1#8), (0x301, 5#8), (0x302, 6#8)] } 0xF265 (fun t => (t.i, t.reg 0, t.reg 1, t.reg 2, t.reg 3)) = some (0x303#16, 1#8, 5#8, 6#8, 0x77#8) := by decide

/-- V136. -/
theorem test_ldVxMi_vf :
    after { State.reset with i := 0x300#16, mem := [(0x30F, 0xAB#8)] } 0xFF65 (fun t => (t.i, t.reg vf)) = some (0x310#16, 0xAB#8) := by decide

/-- V154. -/
theorem test_ldVxDt :
    after { State.reset with dt := 0x2A#8 } 0xF007 (fun t => (t.pc, t.reg 0, t.dt)) = some (0x202#16, 0x2A#8, 0x2A#8) := by decide

/-- V150. -/
theorem test_ldVxK_waits :
    after State.reset 0xF00A (fun t => (t.pc, t.reg 0)) = some (0x200#16, 0#8) := by decide

/-- V151. -/
theorem test_ldVxK_highest :
    after (withKey 3 (withKey 9 State.reset)) 0xF00A (fun t => (t.pc, t.reg 0)) = some (0x202#16, 0x09#8) := by decide

/-- V155. -/
theorem test_ldDtVx :
    after (withRegs [(0, 0x09#8)]) 0xF015 (fun t => (t.pc, t.dt)) = some (0x202#16, 0x09#8) := by decide

/-- V157. -/
theorem test_ldStVx :
    after (withRegs [(4, 0x1E#8)]) 0xF418 (fun t => (t.st, soundOn t)) = some (0x1E#8, true) := by decide

/-- V107: with NN = 0 any draw gives 0. -/
theorem test_rnd_masks : ∃ t, exec (.rnd 3 0#8) (withRegs [(3, 0x09#8)]) = .next t ∧ t.reg 3 = 0#8 :=
  ⟨_, rfl, by simp [State.reg, State.setReg]⟩

/-- R174: one draw is taken and pc stays as the fetch left it. -/
theorem test_rnd_draws_once : after State.reset 0xC30F (fun t => (t.pc, t.draws)) = some (0x202#16, 1) := by decide

/-! ### Faults of the fetch, host steps -/

/-- V4. -/
theorem test_fetch_second_byte_past_memory :
    step { State.reset with pc := 0xFFF#16 } = .next { State.reset with
      pc := 0xFFF#16, fault := some ⟨.memoryOutOfRange, 0xFFF#16, none, some 0x1000⟩ } := by rfl

/-- H2: a timer at 0 stays at 0. -/
theorem test_tick_at_zero :
    ((timerTick { State.reset with st := 1#8 }).dt, (timerTick { State.reset with st := 1#8 }).st) = (0#8, 0#8) := by
  decide

/-- V6: the report of a DecodeError word. -/
theorem test_decode_error_report :
    decodeErrorOut (State.reset.withFetchWord 16 0x8FFF) = some (0x8FFF#16, 0x200#16) := by decide

/-- V21: a jump to itself is idle. -/
theorem test_self_jump_is_idle : (State.reset.withFetchWord 16 0x1200).condition = .idle := by decide

/-! ### Every hypothesis of a statement can be met

One theorem per statement that has hypotheses, one part per clause, at the boundaries of the clause's range. -/

/-- Memory, registers and a stack in use; no fault latched. -/
def busy : State :=
  { withRegs [(0, 0x12#8), (1, 0x34#8)] with
    mem := [(0x200, 0x12#8), (0x300, 0xFF#8)], i := 0x300#16, stack := [0x1000#16], stackCap := some 1 }

/-- `DecodesAs`: each pattern of R82 is a word with its own fixed bits. -/
theorem witness_decodes_as :
    (([(0xFFFF#16, 0x00E0#16), (0xFFFF#16, 0x00EE#16), (0xF000#16, 0x1000#16), (0xF000#16, 0x2000#16),
      (0xF000#16, 0x3000#16), (0xF000#16, 0x4000#16), (0xF00F#16, 0x5000#16), (0xF000#16, 0x6000#16),
      (0xF000#16, 0x7000#16), (0xF00F#16, 0x8000#16), (0xF00F#16, 0x8001#16), (0xF00F#16, 0x8002#16),
      (0xF00F#16, 0x8003#16), (0xF00F#16, 0x8004#16), (0xF00F#16, 0x8005#16), (0xF00F#16, 0x8006#16)] ++
     [(0xF00F#16, 0x8007#16), (0xF00F#16, 0x800E#16), (0xF00F#16, 0x9000#16), (0xF000#16, 0xA000#16),
      (0xF000#16, 0xB000#16), (0xF000#16, 0xC000#16), (0xF000#16, 0xD000#16), (0xF0FF#16, 0xE09E#16),
      (0xF0FF#16, 0xE0A1#16), (0xF0FF#16, 0xF007#16), (0xF0FF#16, 0xF00A#16), (0xF0FF#16, 0xF015#16),
      (0xF0FF#16, 0xF018#16), (0xF0FF#16, 0xF01E#16), (0xF0FF#16, 0xF029#16), (0xF0FF#16, 0xF033#16)] ++
     [(0xF0FF#16, 0xF055#16), (0xF0FF#16, 0xF065#16)] : List (Word × Word)).all fun p =>
      p.2 &&& p.1 == p.2) = true := by decide

/-- SysIsNoOperation: the lowest word, the neighbours of CLS and RET, the highest. -/
theorem witness_sys : (([0x0000#16, 0x00E1#16, 0x00EF#16, 0x0FFF#16] : List Word).all fun w =>
    w &&& 0xF000#16 = 0x0000#16 ∧ w ≠ 0x00E0#16 ∧ w ≠ 0x00EE#16) = true := by decide

/-- RetPopsReturnAddress: one entry, and none. -/
theorem witness_ret : busy.stack = [] ++ [0x1000#16] ∧ State.reset.stack = [] := by decide

/-- CallPushesReturnAddress: no bound, below a bound, at a bound of 1 and of 0. -/
theorem witness_call :
    State.reset.stackCap ≠ some State.reset.stack.length ∧
    ({ State.reset with stackCap := some 1 }).stackCap ≠ some State.reset.stack.length ∧
    busy.stackCap = some busy.stack.length ∧
    ({ State.reset with stackCap := some 0 }).stackCap = some State.reset.stack.length := by decide

/-- ReturnResumesAfterCall: the called code has moved pc and I. -/
theorem witness_return_resumes : ∃ t u, State.reset.stackCap ≠ some State.reset.stack.length ∧
    exec (.call 0xABC#12) State.reset = .next t ∧ u = { t with pc := 0xB00#16, i := 7#16 } ∧ u.stack = t.stack :=
  ⟨_, _, by decide, rfl, rfl, rfl⟩

/-- DrwXorsSprite: N = 0 with I past memory, the last range inside memory, the first past it. -/
theorem witness_drw :
    (0#4).toNat = 0 ∧ ({ State.reset with i := 0xFFC#16 }).i.toNat + (4#4).toNat ≤ 4096 ∧
    0 < (4#4).toNat ∧ 4096 ≤ ({ State.reset with i := 0xFFD#16 }).i.toNat + (4#4).toNat - 1 := by decide

/-- DrwXorsSprite: a cell the sprite sets that was set, one that was not, and one it does not set. -/
theorem witness_drw_cells :
    (∃ j, SpriteSets State.reset 0 0 1#4 j ∧ State.reset.fbCell j = false) ∧
    (∃ j, SpriteSets State.reset 0 0 1#4 j ∧ ({ State.reset with fb := State.reset.fb.set 0 1#64 }).fbCell j = true) ∧
    ¬ ∃ j, SpriteSets State.reset 0 0 0#4 j ∧ State.reset.fbCell j = true :=
  ⟨⟨0, ⟨0, 0, by decide, by decide, by decide, by decide⟩, by decide⟩,
   ⟨0, ⟨0, 0, by decide, by decide, by decide, by decide⟩, by decide⟩,
   fun ⟨_, ⟨_, _, h, _⟩, _⟩ => absurd h (Nat.not_lt_zero _)⟩

/-- DrawingTwiceRestores: the glyph 0 at (V1, V2), the pc back at the instruction, a byte past the sprite changed. -/
theorem witness_draw_twice : ∃ t u, (1 : RegIx) ≠ vf ∧ (2 : RegIx) ≠ vf ∧
    (State.reset.i.toNat + (5#4).toNat ≤ 4096) ∧ exec (.drw 1 2 5#4) State.reset = .next t ∧
    u = { t with pc := 0x200#16, mem := [(5, 0#8)] } ∧ u.mem ≠ t.mem ∧
    (∀ a, State.reset.i.toNat ≤ a → a < State.reset.i.toNat + (5#4).toNat → u.mem.read a = t.mem.read a) ∧ u.i = t.i ∧ u.fb = t.fb ∧ u.reg 1 = t.reg 1 ∧
    u.reg 2 = t.reg 2 :=
  ⟨_, _, by decide, by decide, by decide, rfl, rfl, by decide,
    fun a _ h => if_neg (Nat.ne_of_gt h), rfl, rfl, rfl, rfl⟩

/-- ImmediateSkips and RegisterSkips: equal and unequal operands. -/
theorem witness_skips : busy.reg 0 = 0x12#8 ∧ busy.reg 0 ≠ 0x13#8 ∧ busy.reg 2 = busy.reg 3 ∧
    busy.reg 0 ≠ busy.reg 1 := by decide

/-- RegisterSkips: the words with N not 0, at N = 1 and N = F. -/
theorem witness_register_skip_errors : (([0x5121#16, 0x5FFF#16, 0x9001#16, 0x9FFF#16] : List Word).all fun w =>
    (w &&& 0xF000#16 = 0x5000#16 ∨ w &&& 0xF000#16 = 0x9000#16) ∧ w &&& 0x000F#16 ≠ 0#16) = true := by decide

/-- KeySkips: the last key, pressed and not, and the first index past it. -/
theorem witness_key_skips :
    ((withRegs [(5, 0x0F#8)]).reg 5).toNat = (15 : RegIx).val ∧
    (withKey 15 (withRegs [(5, 0x0F#8)])).keyDown 15 = true ∧ (withRegs [(5, 0x0F#8)]).keyDown 15 = false ∧
    16 ≤ ((withRegs [(5, 0x10#8)]).reg 5).toNat := by decide

/-- The flag statements: X other than F, sums of 255 and 256, equal operands and a borrow. -/
theorem witness_flags : (1 : RegIx) ≠ vf ∧ ¬ 255 < (0xFE#8).toNat + (0x01#8).toNat ∧
    255 < (0xFF#8).toNat + (0x01#8).toNat ∧ ¬ (0x07#8).toNat < (0x07#8).toNat ∧
    (0x05#8).toNat < (0x07#8).toNat := by decide

/-- LdBcdStoresDigits: the last range inside memory and the first past it. -/
theorem witness_bcd : ({ State.reset with i := 0xFFD#16 }).i.toNat + 2 < 4096 ∧
    4096 ≤ ({ State.reset with i := 0xFFE#16 }).i.toNat + 2 := by decide

/-- StoreRegisters and LoadRegisters: the last range inside memory for X = 0 and X = F, and the first past it. -/
theorem witness_store_load :
    ({ State.reset with i := 0xFFF#16 }).i.toNat + (0 : RegIx).val < 4096 ∧
    ({ State.reset with i := 0xFF0#16 }).i.toNat + (15 : RegIx).val < 4096 ∧
    4096 ≤ ({ State.reset with i := 0x1000#16 }).i.toNat + (0 : RegIx).val ∧
    4096 ≤ ({ State.reset with i := 0xFF1#16 }).i.toNat + (15 : RegIx).val := by decide

/-- StoreLoadRoundTrip: X = 1, I set back between the two. -/
theorem witness_store_load_round_trip : ∃ t u, busy.i.toNat + (1 : RegIx).val < 4096 ∧
    exec (.ldMiVx 1) busy = .next t ∧ u = { t with i := busy.i } ∧ u.mem = t.mem ∧ u.i = busy.i :=
  ⟨_, _, by decide, rfl, rfl, rfl, rfl⟩

/-- StoreSeenByNextFetch: FX55 with X = 1, and FX33 with pc at its first and at its second byte. -/
theorem witness_store_seen :
    (busy.i.toNat + (1 : RegIx).val < 4096 ∧ 0 + 1 ≤ (1 : RegIx).val ∧
      ({ busy with pc := 0x300#16 }).pc.toNat = busy.i.toNat + 0) ∧
    busy.i.toNat + 2 < 4096 ∧ ({ busy with pc := 0x300#16 }).pc.toNat = busy.i.toNat ∧
    ({ busy with pc := 0x301#16 }).pc.toNat = busy.i.toNat + 1 := by decide

/-- WaitForKey: the highest of two pressed keys, and no key. -/
theorem witness_wait_for_key :
    ((withKey 3 (withKey 9 State.reset)).keyDown 9 = true ∧
      ∀ j, (withKey 3 (withKey 9 State.reset)).keyDown j = true → j ≤ 9) ∧
    ∀ k, State.reset.keyDown k = false := by decide

/-- StepRunsDecodedInstruction: the last word of memory. -/
theorem witness_step_runs :
    ({ State.reset with pc := 0xFFE#16 }).fault = none ∧ ({ State.reset with pc := 0xFFE#16 }).pc.toNat + 1 < 4096 ∧
    decodeBytes [State.reset.mem.read 0xFFE, State.reset.mem.read 0xFFF] = .ok (.sys 0#12, []) := by decide

/-- FetchIsBigEndian, FetchPastMemoryFaults: the last fetch inside memory, both ways past it. -/
theorem witness_fetch : ({ State.reset with pc := 0xFFE#16 }).pc.toNat ≤ 0xFFE ∧
    ({ State.reset with pc := 0xFFF#16 }).fault = none ∧ ({ State.reset with pc := 0xFFF#16 }).pc.toNat = 0xFFF ∧
    4096 ≤ ({ State.reset with pc := 0x1000#16 }).pc.toNat := by decide

/-- DecodeErrorOnlyAdvancesPc, and the DecodeError clause of FinalPcTable: 0x8FFF at pc. -/
theorem witness_decode_error : ∃ s t, s = State.reset.withFetchWord 16 0x8FFF ∧ s.fault = none ∧
    fetch s = .ok 0x8FFF#16 ∧ decodeWord 0x8FFF#16 = .error (.noOperation 0x8FFF#16) ∧ step s = .next t ∧
    t.fault = none :=
  ⟨_, _, rfl, rfl, rfl, rfl, rfl, rfl⟩

/-- DecodeOfEncode and EncodeOfDecode. -/
theorem witness_round_trip : (Instr.drw 1 2 5#4).WellFormed = true ∧ decodeWord 0xD125#16 = .ok (.drw 1 2 5#4) := by
  decide

/-- FinalPcTable: a jump, with no fault at its end. -/
theorem witness_final_pc : ∃ s t, s = State.reset.withFetchWord 16 0x1ABC ∧ s.fault = none ∧
    fetch s = .ok 0x1ABC#16 ∧ step s = .next t ∧ t.fault = none ∧ decodeWord 0x1ABC#16 = .ok (.jp 0xABC#12) :=
  ⟨_, _, rfl, rfl, rfl, rfl, rfl, rfl⟩

/-- OnlyListedRegistersWritten, OnlyOwnersWriteState: an instruction that owns nothing of the five. -/
theorem witness_owners : (∃ t, exec (.addReg 1 2) busy = .next t) ∧ Instr.addReg 1 2 ≠ .ret ∧
    (∀ nnn, Instr.addReg 1 2 ≠ .call nnn) ∧ (∀ x, Instr.addReg 1 2 ≠ .ldDtVx x) ∧
    (∀ x, Instr.addReg 1 2 ≠ .ldStVx x) ∧ Instr.addReg 1 2 ≠ .cls ∧ (∀ x y n, Instr.addReg 1 2 ≠ .drw x y n) ∧
    (∀ x, Instr.addReg 1 2 ≠ .ldBVx x) ∧ ∀ x, Instr.addReg 1 2 ≠ .ldMiVx x :=
  ⟨⟨_, rfl⟩, nofun, nofun, nofun, nofun, nofun, nofun, nofun, nofun⟩

/-- DrawsAreNeverReused: a draw and an instruction that takes none, alone and in a cycle, and a host move. -/
theorem witness_draws : (∃ t, exec (.rnd 3 0xFF#8) busy = .next t) ∧
    (∃ t, exec (.ldI 0x300#12) busy = .next t) ∧ (∀ x nn, Instr.ldI 0x300#12 ≠ .rnd x nn) ∧
    (∃ s t, s = State.reset.withFetchWord 16 0xC3FF ∧ fetch s = .ok 0xC3FF#16 ∧
      decodeWord 0xC3FF#16 = .ok (.rnd 3 0xFF#8) ∧ step s = .next t) ∧
    (∃ t, (∀ w x nn, fetch State.reset = .ok w → decodeWord w ≠ .ok (.rnd x nn)) ∧ step State.reset = .next t) ∧
    Move.reset ≠ .cycle ∧ ∃ t, move .reset busy = some t :=
  ⟨⟨_, rfl⟩, ⟨_, rfl⟩, nofun, ⟨_, _, rfl, rfl, rfl, rfl⟩,
    ⟨_, ⟨fun w x nn h hd => (by
      obtain rfl : 0x0000#16 = w := Except.ok.inj ((rfl : Except.ok 0x0000#16 = fetch State.reset).trans h)
      cases hd), rfl⟩⟩, nofun, ⟨_, rfl⟩⟩

/-- A state halted by an empty-stack RET, the end of V27. -/
def halted : State :=
  { State.reset with pc := 0x202#16, fault := some ⟨.stackUnderflow, 0x200#16, some 0x00EE#16, none⟩ }

/-- HaltedCoreHasNoCycle: a halted state, and a host step it still takes. -/
theorem witness_halted : halted.fault = some ⟨.stackUnderflow, 0x200#16, some 0x00EE#16, none⟩ ∧
    (∃ t, move .timerTick halted = some t) ∧ (∀ font image, Move.timerTick ≠ .load font image) ∧
    Move.timerTick ≠ .reset :=
  ⟨rfl, ⟨_, rfl⟩, nofun, nofun⟩

/-- FaultsArePrecise: a fault in execution and one of the fetch. -/
theorem witness_precise :
    (∃ s t, s = State.reset.withFetchWord 16 0x00EE ∧ step s = .next t ∧ t.fault ≠ none ∧ fetch s = .ok 0x00EE#16) ∧
    ∃ s t, s = { State.reset with pc := 0xFFF#16 } ∧ step s = .next t ∧ t.fault ≠ none ∧
      fetch s = .error 0x1000 :=
  ⟨⟨_, _, rfl, rfl, by decide, rfl⟩, ⟨_, _, rfl, rfl, by decide, rfl⟩⟩

/-- What `exec` latches, none where it answers no next state. -/
def latched (i : Instr) (s : State) : Option FaultRecord :=
  match exec i s with
  | .next t => t.fault
  | .fault _ => none
  | .refused _ => none

/-- FaultCauseTable: each cause, from a state with no fault. -/
theorem witness_fault_causes :
    (latched .ret State.reset).map (·.cause) = some .stackUnderflow ∧
    (latched (.call 0x300#12) busy).map (·.cause) = some .stackOverflow ∧
    (latched (.drw 0 0 1#4) { busy with i := 0x1000#16 }).map (·.cause) = some .memoryOutOfRange ∧
    (latched (.ldBVx 0) { busy with i := 0xFFE#16 }).map (·.cause) = some .memoryOutOfRange ∧
    (latched (.ldMiVx 1) { busy with i := 0xFFF#16 }).map (·.cause) = some .memoryOutOfRange ∧
    (latched (.ldVxMi 1) { busy with i := 0xFFF#16 }).map (·.cause) = some .memoryOutOfRange ∧
    (latched (.skp 0) busy).map (·.cause) = some .keyIndexOutOfRange ∧
    (latched (.sknp 0) busy).map (·.cause) = some .keyIndexOutOfRange := by decide

/-- StepKeepsInvariant: a state in use, at its stack bound, and its cycle. -/
theorem witness_step_invariant : busy.Inv ∧ ∃ t, step busy = .next t :=
  ⟨⟨by decide, by decide, by simp [busy], fun c h => by cases h; decide, nofun⟩, ⟨_, rfl⟩⟩

/-- StepKeepsInvariant: the highest pc, where the fetch faults. -/
theorem witness_step_invariant_highest_pc : ({ busy with pc := 0x10FE#16 }).Inv ∧
    ∃ t, step { busy with pc := 0x10FE#16 } = .next t :=
  ⟨⟨by decide, by decide, by simp [busy], fun c h => by cases h; decide, nofun⟩, ⟨_, rfl⟩⟩

/-- MovesKeepInvariant: a state in use, at its stack bound, which a load with that bound starts again. -/
theorem witness_moves_invariant : busy.Inv ∧ (∃ t, move .cycle busy = some t) ∧ (∃ t, move .reset busy = some t) ∧
    (∃ t, move .timerTick busy = some t) ∧ (∃ t, move (.keyIn State.reset.key) busy = some t) ∧
    ∃ t, move (.load defaultFont (some [0x12#8, 0x00#8])) busy = some t :=
  ⟨witness_step_invariant.1, ⟨_, rfl⟩, ⟨_, rfl⟩, ⟨_, rfl⟩, ⟨_, rfl⟩, ⟨_, rfl⟩⟩

/-- MovesKeepInvariant: a sequence with every kind of move, from a machine whose stack holds at most 16 entries. -/
theorem witness_moves_sequence : (State.resetWith (some 16)).Inv ∧
    ∃ t, moves [.timerTick, .cycle, .keyIn State.reset.key, .reset, .cycle, .load defaultFont (some [0x12#8, 0x00#8])]
      (State.resetWith (some 16)) = some t :=
  ⟨⟨by decide, by decide, by simp [State.resetWith, State.reset], fun c h => by cases h; decide, nofun⟩, ⟨_, rfl⟩⟩

/-- R104 with the arguments of R40 as arguments: at P_STACK_CAPACITY = 0 the first call overflows, at 1 it does not. -/
theorem test_stack_capacity_argument :
    ((cycleWith (some 0) 0#8 (State.reset.withFetchWord 16 0x2ABC).toMachineState).map (·.fault)) =
      some (some ⟨.stackOverflow, 0x200#16, some 0x2ABC#16, none⟩) ∧
    ((cycleWith (some 1) 0#8 (State.reset.withFetchWord 16 0x2ABC).toMachineState).map (·.stack)) =
      some [0x202#16] := by decide

/-- V106: the draw as an argument. -/
theorem test_rnd_draw_argument :
    ((cycleWith none 0xB7#8 (State.reset.withFetchWord 16 0xC30F).toMachineState).map (·.v[3])) = some 0x07#8 := by
  decide

/-- LoadInitialisesMachine: the longest image and the shortest one too long. -/
theorem witness_load : (List.replicate 3584 0#8).length ≤ 3584 ∧ 3584 < (List.replicate 3585 0#8).length := by
  rw [List.length_replicate, List.length_replicate]; decide

/-- LoadInitialisesMachine, ResetStateIsEmptyLoad: an address of each range, for an image of two bytes. -/
theorem witness_load_addresses : 79 < 80 ∧ 1 < [0x12#8, 0x00#8].length ∧ 80 ≤ 80 ∧ 80 < 0x200 ∧
    0x200 + [0x12#8, 0x00#8].length ≤ 0x202 := by decide

/-- IdleStateIsStable: a state of each condition. -/
theorem witness_conditions : (State.reset.withFetchWord 16 0x1200).condition = .idle ∧
    State.reset.condition = .running ∧ halted.condition = .faulted := by decide

end Sys2Proof.Tests
end

/-! ### What `exec` answers

An instruction either takes one of the faults of R231 or completes; `exec_answers` says so once for all 35, with what a
completed instruction can have done to each part of the state. The frames, the pc table and the invariant are read off
from it. -/

namespace Sys2Proof.Machine

/-- The state before the fetch that left `s`: pc back at `ia` (R13, R25). -/
def State.beforeFetch (s : State) : State := s.setPc s.instrAddr

@[simp] theorem State.beforeFetch_advance (s : State) : s.advance.beforeFetch = s := by
  simp only [beforeFetch, instrAddr, advance, setPc, BitVec.add_sub_cancel]

theorem State.beforeFetch_pc_add_two (s : State) : s.beforeFetch.pc + 2#16 = s.pc :=
  BitVec.sub_add_cancel s.pc 2#16

theorem State.beforeFetch_pc_add_four (s : State) : s.beforeFetch.pc + 4#16 = s.pc + 2#16 := by
  rw [← s.beforeFetch_pc_add_two, BitVec.add_assoc]; rfl

/-- When instruction `i` in execution takes a fault, which cause and which `info` (R231). -/
inductive Raises (s : State) : Instr → FaultCause → Option Nat → Prop
  | ret (h : s.stack = []) : Raises s .ret .stackUnderflow none
  | call (nnn : Imm12) (h : s.stackCap = some s.stack.length) : Raises s (.call nnn) .stackOverflow none
  | drw (x y : RegIx) (n : Nibble) (hn : 0 < n.toNat) (h : 4096 < s.i.toNat + n.toNat) :
      Raises s (.drw x y n) .memoryOutOfRange (some (s.i.toNat + n.toNat - 1))
  | ldBVx (x : RegIx) (h : 4096 ≤ s.i.toNat + 2) : Raises s (.ldBVx x) .memoryOutOfRange (some (s.i.toNat + 2))
  | ldMiVx (x : RegIx) (h : 4096 ≤ s.i.toNat + x.val) :
      Raises s (.ldMiVx x) .memoryOutOfRange (some (s.i.toNat + x.val))
  | ldVxMi (x : RegIx) (h : 4096 ≤ s.i.toNat + x.val) :
      Raises s (.ldVxMi x) .memoryOutOfRange (some (s.i.toNat + x.val))
  | skp (x : RegIx) (h : 16 ≤ (s.reg x).toNat) : Raises s (.skp x) .keyIndexOutOfRange (some (s.reg x).toNat)
  | sknp (x : RegIx) (h : 16 ≤ (s.reg x).toNat) : Raises s (.sknp x) .keyIndexOutOfRange (some (s.reg x).toNat)

/-- What a completed instruction can have done: each part of the state but I, which is left open, is unchanged unless the
instruction owns it, pc is the one of R26's table, and the stack has kept, lost or gained its top. -/
structure Effect (i : Instr) (s t : State) : Prop where
  pc : t.pc = finalPc i s.beforeFetch
  regs : SameRegsBut (regWrites i) s t
  stack : t.stack = s.stack ∨ (i = .ret ∧ ∃ a, s.stack = t.stack ++ [a]) ∨
    ((∃ nnn, i = .call nnn) ∧ s.stackCap ≠ some s.stack.length ∧ t.stack = s.stack ++ [s.pc])
  dt : (∀ x, i ≠ .ldDtVx x) → t.dt = s.dt
  st : (∀ x, i ≠ .ldStVx x) → t.st = s.st
  fb : i ≠ .cls → (∀ x y n, i ≠ .drw x y n) → t.fb = s.fb
  mem : (∀ x, i ≠ .ldBVx x) → (∀ x, i ≠ .ldMiVx x) → t.mem = s.mem
  memWf : s.mem.wf = true → t.mem.wf = true
  draws : (∀ x nn, i ≠ .rnd x nn) → t.draws = s.draws
  key : t.key = s.key
  fault : t.fault = s.fault
  stackCap : t.stackCap = s.stackCap

/-- The two answers an instruction in execution has: a fault of R231, or a completed effect. -/
inductive Answers (i : Instr) (s : State) : Result → Prop
  | fault {cause : FaultCause} {info : Option Nat} (h : Raises s i cause info) :
      Answers i s (raiseFault cause i info s)
  | next {t : State} (h : Effect i s t) : Answers i s (.next t)

/-- NNN as an address is the number NNN (R76). -/
theorem addrOf_eq_ofNat (nnn : Imm12) : addrOf nnn = BitVec.ofNat 16 nnn.toNat :=
  (BitVec.ofNat_toNat 16 nnn).symm

/-- The target of BNNN is the exact sum (R108). -/
theorem State.jumpOffset_eq_ofNat (s : State) (nnn : Imm12) :
    s.jumpOffset nnn = BitVec.ofNat 16 ((s.reg 0).toNat + nnn.toNat) := by
  simp only [jumpOffset, reg16, addrOf, BitVec.ofNat_add, BitVec.ofNat_toNat]

namespace Effect

section
variable {i : Instr} {s t : State}

/-! #### Effects by the updates they are made of -/

theorem setPc {a : Word} (h : finalPc i s.beforeFetch = a) : Effect i s (s.setPc a) where
  pc := h.symm
  regs _ _ := rfl
  stack := .inl rfl
  dt _ := rfl
  st _ := rfl
  fb _ _ := rfl
  mem _ _ := rfl
  memWf := id
  draws _ := rfl
  key := rfl
  fault := rfl
  stackCap := rfl

/-- An instruction that goes on with the next one, before its other updates. -/
theorem advances (h : finalPc i s.beforeFetch = s.beforeFetch.pc + 2#16) : Effect i s s :=
  setPc (a := s.pc) (h.trans s.beforeFetch_pc_add_two)

theorem skipIf {c : Bool}
    (h : finalPc i s.beforeFetch = if c then s.beforeFetch.pc + 4#16 else s.beforeFetch.pc + 2#16) :
    Effect i s (s.skipIf c) := by
  cases c with
  | false => exact advances h
  | true => exact setPc (h.trans s.beforeFetch_pc_add_four)

theorem setReg (h : Effect i s t) {x : RegIx} (hx : x ∈ regWrites i) (b : Byte) : Effect i s (t.setReg x b) :=
  { h with
    regs := fun r hr => by rw [State.reg_setReg_of_ne t b (ne_of_mem_of_not_mem hx hr).symm, h.regs r hr] }

theorem loadRegs (h : Effect i s t) (base : Nat) {rs : List RegIx} (hrs : ∀ r ∈ rs, r ∈ regWrites i) :
    Effect i s (t.loadRegs base rs) := by
  induction rs generalizing t with
  | nil => exact h
  | cons r rs ih =>
    exact ih (h.setReg (hrs r List.mem_cons_self) _) fun q hq => hrs q (List.mem_cons_of_mem r hq)

theorem setI (h : Effect i s t) (a : Word) : Effect i s (t.setI a) := { h with }

theorem setDt (h : Effect i s t) (own : ∃ x, i = .ldDtVx x) (b : Byte) : Effect i s (t.setDt b) :=
  { h with dt := fun hne => own.elim fun x hx => absurd hx (hne x) }

theorem setSt (h : Effect i s t) (own : ∃ x, i = .ldStVx x) (b : Byte) : Effect i s (t.setSt b) :=
  { h with st := fun hne => own.elim fun x hx => absurd hx (hne x) }

theorem setFb (h : Effect i s t) (own : i = .cls ∨ ∃ x y n, i = .drw x y n) (f : Framebuffer) :
    Effect i s (t.setFb f) :=
  { h with
    fb := fun hcls hdrw => own.elim (absurd · hcls) fun ⟨x, y, n, hi⟩ => absurd hi (hdrw x y n) }

theorem setMem (h : Effect i s t) (own : (∃ x, i = .ldBVx x) ∨ ∃ x, i = .ldMiVx x) {m : Memory}
    (hm : s.mem.wf = true → m.wf = true) : Effect i s (t.setMem m) :=
  { h with
    mem := fun hb hm => own.elim (fun ⟨x, hi⟩ => absurd hi (hb x)) fun ⟨x, hi⟩ => absurd hi (hm x)
    memWf := hm }

theorem draw8 (h : Effect i s t) (own : ∃ x nn, i = .rnd x nn) : Effect i s t.draw8.2 :=
  { h with draws := fun hne => own.elim fun x ⟨nn, hi⟩ => absurd hi (hne x nn) }

end

/-! #### The stack instructions -/

theorem ret {s : State} {rest : List Word} {a : Word} (h : s.stack = rest ++ [a]) :
    Effect .ret s (State.setPc { s with stack := rest } a) :=
  have hpc : finalPc .ret s.beforeFetch = a := by
    change s.stack.getLastD 0#16 = a
    simp [h]
  { setPc hpc with stack := .inr (.inl ⟨rfl, a, h⟩) }

theorem call {s : State} (nnn : Imm12) (h : s.stackCap ≠ some s.stack.length) :
    Effect (.call nnn) s ((s.push s.pc).setPc (addrOf nnn)) :=
  { setPc (i := .call nnn) (s := s) (addrOf_eq_ofNat nnn).symm with
    stack := .inr (.inr ⟨⟨nnn, rfl⟩, h, rfl⟩) }

/-! #### The stack, case by case -/

section
variable {i : Instr} {s t : State} (h : Effect i s t)
include h

theorem stack_eq (hret : i ≠ .ret) (hcall : ∀ nnn, i ≠ .call nnn) : t.stack = s.stack := by
  rcases h.stack with hs | ⟨hi, -⟩ | ⟨⟨nnn, hi⟩, -⟩
  · exact hs
  · exact absurd hi hret
  · exact absurd hi (hcall nnn)

/-- The one address an instruction saves is the pc the fetch left (R104). -/
theorem mem_stack {a : Word} (ha : a ∈ t.stack) : a ∈ s.stack ∨ a = s.pc := by
  rcases h.stack with hs | ⟨-, b, hs⟩ | ⟨-, -, hs⟩
  · exact .inl (hs ▸ ha)
  · exact .inl (hs ▸ List.mem_append_left [b] ha)
  · simpa [hs] using ha

/-- The stack grows only below its capacity (R29, R105). -/
theorem stack_length_le {c : Nat} (hc : s.stackCap = some c) (hle : s.stack.length ≤ c) : t.stack.length ≤ c := by
  rcases h.stack with hs | ⟨-, b, hs⟩ | ⟨-, hne, hs⟩
  · exact hs ▸ hle
  · have hlen : s.stack.length = t.stack.length + 1 := by simp [hs]
    omega
  · have hlen : t.stack.length = s.stack.length + 1 := by simp [hs]
    have : c ≠ s.stack.length := fun e => hne (hc.trans (congrArg some e))
    omega

end

end Effect

/-! #### The shared operations -/

theorem Answers.withRange {i : Instr} {s t : State} {base n : Nat}
    (hf : 0 < n → 4096 < base + n → Raises s i .memoryOutOfRange (some (base + n - 1))) (he : Effect i s t) :
    Answers i s (withRange i base n s t) := by
  rcases withRange_cases i base n s t with ⟨h0, hr, h⟩ | ⟨-, h⟩
  · exact h ▸ .fault (hf h0 hr)
  · exact h ▸ .next he

theorem finalPc_sneImm (s : State) (x : RegIx) (nn : Byte) :
    finalPc (.sneImm x nn) s = if s.reg x != nn then s.pc + 4#16 else s.pc + 2#16 := by
  simp only [finalPc, decide_eq_true_eq, bne_iff_ne]

theorem finalPc_sneReg (s : State) (x y : RegIx) :
    finalPc (.sneReg x y) s = if s.reg x != s.reg y then s.pc + 4#16 else s.pc + 2#16 := by
  simp only [finalPc, decide_eq_true_eq, bne_iff_ne]

/-- The key VX names is pressed exactly when some pressed key has its number (R145, R146). -/
theorem State.exists_keyDown_iff {s : State} {n : Nat} {k : RegIx} (h : n = k.val) :
    (∃ j, s.keyDown j = true ∧ j.val = n) ↔ s.keyDown k = true :=
  ⟨fun ⟨_, hj, hn⟩ => Fin.ext (hn.trans h) ▸ hj, fun hk => ⟨k, hk, h.symm⟩⟩

theorem finalPc_skp {s : State} {x k : RegIx} (h : (s.reg x).toNat = k.val) :
    finalPc (.skp x) s = if s.keyDown k == true then s.pc + 4#16 else s.pc + 2#16 := by
  simp only [finalPc, State.exists_keyDown_iff h, decide_eq_true_eq, beq_iff_eq]

theorem finalPc_sknp {s : State} {x k : RegIx} (h : (s.reg x).toNat = k.val) :
    finalPc (.sknp x) s = if s.keyDown k == false then s.pc + 4#16 else s.pc + 2#16 := by
  simp only [finalPc, State.exists_keyDown_iff h, decide_eq_true_eq, beq_iff_eq, Bool.not_eq_true]

/-- The key skips: a fault on an index of 16 or more, else a skip on the key VX names (R147). -/
theorem Answers.skipOnKey {i : Instr} {x : RegIx} {down : Bool} {s : State}
    (hf : 16 ≤ (s.reg x).toNat → Raises s i .keyIndexOutOfRange (some (s.reg x).toNat))
    (he : ∀ k : RegIx, (s.reg x).toNat = k.val → Effect i s (s.skipIf (s.keyDown k == down))) :
    Answers i s (skipOnKey i x down s) := by
  unfold Machine.skipOnKey
  rcases keyIndex_cases (s.reg x) with ⟨h, hk⟩ | ⟨h, hk⟩
  · rw [hk]
    exact .next (he _ rfl)
  · rw [hk]
    exact .fault (hf h)

theorem execRet_answers (s : State) : Answers .ret s (execRet s) := by
  unfold execRet
  rcases s.pop_cases with ⟨h, hp⟩ | ⟨rest, a, h, hp⟩
  · rw [hp]
    exact .fault (.ret h)
  · rw [hp]
    exact .next (.ret h)

theorem execCall_answers (nnn : Imm12) (s : State) : Answers (.call nnn) s (execCall nnn s) := by
  unfold execCall
  split
  · exact .fault (.call nnn ‹_›)
  · exact .next (.call nnn ‹_›)

/-- The key wait stores a key or goes back to `ia` (R211). -/
theorem execLdVxK_answers (x : RegIx) (s : State) : Answers (.ldVxK x) s (execLdVxK x s) := by
  unfold execLdVxK
  rcases s.highestKey_cases with ⟨hk, hno⟩ | ⟨k, hk, hdown, -⟩
  · have hpc : finalPc (.ldVxK x) s.beforeFetch = s.pc - 2#16 :=
      if_neg fun ⟨j, hj⟩ => Bool.false_ne_true ((hno j).symm.trans hj)
    rw [hk]
    exact .next (.setPc hpc)
  · have hpc : finalPc (.ldVxK x) s.beforeFetch = s.beforeFetch.pc + 2#16 := if_pos ⟨k, hdown⟩
    rw [hk]
    exact .next ((Effect.advances hpc).setReg List.mem_cons_self _)

/-- Every instruction takes a fault of R231 or completes. -/
theorem exec_answers (i : Instr) (s : State) : Answers i s (exec i s) := by
  cases i with
  | sys nnn => exact .next (.advances rfl)
  | cls => exact .next ((Effect.advances rfl).setFb (.inl rfl) _)
  | ret => exact execRet_answers s
  | jp nnn => exact .next (.setPc (addrOf_eq_ofNat nnn).symm)
  | call nnn => exact execCall_answers nnn s
  | jpV0 nnn => exact .next (.setPc (s.jumpOffset_eq_ofNat nnn).symm)
  | seImm x nn => exact .next (.skipIf rfl)
  | sneImm x nn => exact .next (.skipIf (finalPc_sneImm s.beforeFetch x nn))
  | seReg x y => exact .next (.skipIf rfl)
  | sneReg x y => exact .next (.skipIf (finalPc_sneReg s.beforeFetch x y))
  | ldImm x nn | addImm x nn => exact .next ((Effect.advances rfl).setReg List.mem_cons_self _)
  | ldReg x y | orReg x y | andReg x y | xorReg x y | ldVxDt x =>
    exact .next ((Effect.advances rfl).setReg List.mem_cons_self _)
  | rnd x nn => exact .next (((Effect.advances rfl).draw8 ⟨x, nn, rfl⟩).setReg List.mem_cons_self _)
  | addReg x y | sub x y | subn x y =>
    exact .next (((Effect.advances rfl).setReg List.mem_cons_self _).setReg
      (List.mem_cons_of_mem x List.mem_cons_self) _)
  | shr x y | shl x y =>
    exact .next (((Effect.advances rfl).setReg (List.mem_cons_of_mem x List.mem_cons_self) _).setReg
      List.mem_cons_self _)
  | ldI nnn => exact .next ((Effect.advances rfl).setI _)
  | addIVx x | ldFVx x => exact .next ((Effect.advances rfl).setI _)
  | ldDtVx x => exact .next ((Effect.advances rfl).setDt ⟨x, rfl⟩ _)
  | ldStVx x => exact .next ((Effect.advances rfl).setSt ⟨x, rfl⟩ _)
  | ldVxK x => exact execLdVxK_answers x s
  | drw x y n =>
    exact .withRange (.drw x y n)
      (((Effect.advances rfl).setFb (.inr ⟨x, y, n, rfl⟩) _).setReg List.mem_cons_self _)
  | skp x => exact .skipOnKey (.skp x) fun k hk => .skipIf (finalPc_skp (s := s.beforeFetch) hk)
  | sknp x => exact .skipOnKey (.sknp x) fun k hk => .skipIf (finalPc_sknp (s := s.beforeFetch) hk)
  | ldBVx x =>
    exact .withRange (fun _ h => .ldBVx x (by omega))
      ((Effect.advances rfl).setMem (.inl ⟨x, rfl⟩) (Memory.wf_writeBlock · _ _))
  | ldMiVx x =>
    exact .withRange (fun _ h => .ldMiVx x (by omega))
      (((Effect.advances rfl).setMem (.inr ⟨x, rfl⟩) (Memory.wf_writeBlock · _ _)).setI _)
  | ldVxMi x =>
    exact .withRange (fun _ h => .ldVxMi x (by omega))
      (((Effect.advances rfl).loadRegs _ fun r hr => by simpa [regWrites] using (mem_regsUpTo x r).1 hr).setI _)

/-- A next state is the one the fetch left with a fault latched, or a completed effect (R232 to R234). -/
theorem exec_next_cases {i : Instr} {s t : State} (h : exec i s = .next t) :
    (∃ cause info, Raises s i cause info ∧ t = s.latch ⟨cause, s.instrAddr, some (encode i), info⟩) ∨
      Effect i s t := by
  have ha := h ▸ exec_answers i s
  generalize hr : Host.Outcome.next t = r at ha
  cases ha with
  | fault hf => exact .inl ⟨_, _, hf, Host.Outcome.next.inj hr⟩
  | next he => exact .inr (Host.Outcome.next.inj hr ▸ he)

/-! ### What an instruction leaves unchanged -/

/-- Settles O46: a fault writes no register, and a completed instruction only the listed ones. -/
theorem onlyListedRegistersWritten : Obligations.OnlyListedRegistersWritten := by
  intro i s t h
  rcases exec_next_cases h with ⟨_, _, _, rfl⟩ | he
  · exact fun _ _ => rfl
  · exact he.regs

/-- Settles O47: a fault writes none of these parts, and a completed instruction only those it owns. -/
theorem onlyOwnersWriteState : Obligations.OnlyOwnersWriteState := by
  intro i s t h
  rcases exec_next_cases h with ⟨_, _, _, rfl⟩ | he
  · exact ⟨rfl, rfl, fun _ _ => rfl, fun _ => rfl, fun _ => rfl, fun _ _ _ => rfl, fun _ _ _ => rfl⟩
  · refine ⟨he.key, he.stackCap, fun hret hcall => ?_, he.dt, he.st, fun hcls hdrw j => ?_, fun hb hm a => ?_⟩
    · exact he.stack_eq hret hcall
    · rw [State.fbCell_def, he.fb hcls hdrw, State.fbCell_def]
    · rw [he.mem hb hm]

/-! ### The pc after a cycle -/

/-- Settles O45: a completed instruction has its pc of R26's table, and a DecodeError word the advanced one. -/
theorem finalPcTable : Obligations.FinalPcTable := by
  intro s t w hs hw hst ht
  rcases step_cases s with ⟨f, hf, -⟩ | ⟨-, a, ha, -⟩ | ⟨-, w', e, hw', hd, he⟩ | ⟨-, w', j, hw', hd, he⟩
  · exact absurd (hs.symm.trans hf) nofun
  · exact absurd (hw.symm.trans ha) nofun
  · obtain rfl : w = w' := Except.ok.inj (hw.symm.trans hw')
    obtain rfl : s.advance = t := Host.Outcome.next.inj (he.symm.trans hst)
    exact ⟨fun i hi => absurd (hd.symm.trans hi) nofun, fun _ => rfl⟩
  · obtain rfl : w = w' := Except.ok.inj (hw.symm.trans hw')
    refine ⟨fun i hi => ?_, fun h => absurd (hd.symm.trans h) nofun⟩
    obtain rfl : j = i := Except.ok.inj (hd.symm.trans hi)
    rcases exec_next_cases (he.symm.trans hst) with ⟨_, _, _, rfl⟩ | he
    · exact absurd ht nofun
    · simpa using he.pc

/-! ### The invariant -/

theorem toNat_skip_le {a : Word} (h : a.toNat + 1 < 4096) (c : Bool) :
    (if c then a + 4#16 else a + 2#16).toNat ≤ 0x10FE := by
  split <;> bv_omega

/-- R27's range: from a fetched instruction's address no row of R26's table passes 0x10FE. -/
theorem finalPc_toNat_le (i : Instr) {s : State} (hpc : s.pc.toNat + 1 < 4096)
    (hsaved : ∀ a ∈ s.stack, a.toNat ≤ 0x1000) : (finalPc i s).toNat ≤ 0x10FE := by
  cases i with
  | jp nnn | call nnn =>
    have := nnn.isLt
    rw [finalPc, BitVec.toNat_ofNat]
    omega
  | ret =>
    rw [finalPc, List.getLastD_eq_getLast?]
    cases h : s.stack.getLast? with
    | none => decide
    | some a => exact (hsaved a (List.mem_of_getLast? h)).trans (by decide)
  | jpV0 nnn =>
    have := nnn.isLt
    have := (s.reg 0).isLt
    rw [finalPc, BitVec.toNat_ofNat]
    omega
  | seImm | sneImm | seReg | sneReg | skp | sknp => exact toNat_skip_le hpc _
  | ldVxK =>
    rw [finalPc]
    split
    · exact toNat_skip_le hpc false
    · omega
  | _ => exact toNat_skip_le hpc false

/-- The record of a fault fits its cause (R231, R233). -/
theorem Raises.consistent {i : Instr} {s : State} {cause : FaultCause} {info : Option Nat}
    (h : Raises s i cause info) (ia : Word) : FaultRecord.Consistent ⟨cause, ia, some (encode i), info⟩ := by
  cases h with
  | ret => exact ⟨rfl, rfl⟩
  | call nnn => exact ⟨⟨_, rfl, Laws.EncodingMatchesTable.call nnn⟩, rfl⟩
  | drw x y n hn h => exact ⟨_, rfl, by omega⟩
  | ldBVx x h | ldMiVx x h | ldVxMi x h => exact ⟨_, rfl, h⟩
  | skp x h | sknp x h => exact ⟨_, rfl, h, (s.reg x).isLt⟩

namespace State.Inv

variable {s t : State}

theorem latch (h : s.Inv) {f : FaultRecord} (hf : f.Consistent) : (s.latch f).Inv :=
  { h with faultOk := fun _ hg => Option.some.inj hg ▸ hf }

/-- The fetch's advance, from an address it can read at (R72, R73). -/
theorem advance (h : s.Inv) (hpc : s.pc.toNat + 1 < 4096) : s.advance.Inv :=
  { h with pcRange := toNat_skip_le hpc false }

/-- The address of a fetch fault is past memory (R73). -/
theorem fetchFault (h : s.Inv) {a : Nat} (ha : fetch s = .error a) (ht : fetchFault a s = .next t) : t.Inv := by
  have hle : 4096 ≤ a := by
    rcases fetch_cases s with ⟨-, hf⟩ | ⟨-, hf⟩ | ⟨hpc, hf⟩
    · exact absurd (ha.symm.trans hf) nofun
    · exact (Except.error.inj (ha.symm.trans hf)).ge
    · exact (Except.error.inj (ha.symm.trans hf)) ▸ hpc
  exact Host.Outcome.next.inj ht ▸ h.latch ⟨a, rfl, hle⟩

/-- A completed instruction, executed after the fetch's advance. -/
theorem of_effect {i : Instr} (h : s.Inv) (hpc : s.pc.toNat + 1 < 4096) (he : Effect i s.advance t) : t.Inv where
  memWf := he.memWf h.memWf
  pcRange := by
    rw [he.pc, beforeFetch_advance]
    exact finalPc_toNat_le i hpc h.savedRange
  savedRange a ha := by
    rcases he.mem_stack ha with ha | rfl
    · exact h.savedRange a ha
    · rw [advance_pc]
      bv_omega
  withinCap c hc :=
    have hc : s.stackCap = some c := he.stackCap.symm.trans hc
    he.stack_length_le hc (h.withinCap c hc)
  faultOk f hf := h.faultOk f (he.fault.symm.trans hf)

/-- What a load and a reset leave has the invariant, whatever the state was (R39). -/
theorem zeroed (s : State) {m : Memory} (hm : m.wf = true) : (s.zeroed m).Inv where
  memWf := hm
  pcRange := (by decide : 0x200 ≤ 0x10FE)
  savedRange := nofun
  withinCap c _ := Nat.zero_le c
  faultOk := nofun

end State.Inv

/-- A fetch that answers a word reads below 4096 (R73). -/
theorem fetch_ok_pc_lt {s : State} {w : Word} (h : fetch s = .ok w) : s.pc.toNat + 1 < 4096 := by
  rcases fetch_cases s with ⟨hpc, -⟩ | ⟨-, hf⟩ | ⟨-, hf⟩
  · exact hpc
  · exact absurd (h.symm.trans hf) nofun
  · exact absurd (h.symm.trans hf) nofun

/-- Settles O52: a fault latches a record that fits its cause, and a completed effect keeps every other clause. -/
theorem stepKeepsInvariant : Obligations.StepKeepsInvariant := by
  intro s t hs hst
  rcases step_cases s with ⟨f, -, he⟩ | ⟨-, a, ha, he⟩ | ⟨-, w, e, hw, -, he⟩ | ⟨-, w, i, hw, -, he⟩
  · exact absurd (he.symm.trans hst) nofun
  · exact hs.fetchFault ha (he.symm.trans hst)
  · exact Host.Outcome.next.inj (he.symm.trans hst) ▸ hs.advance (fetch_ok_pc_lt hw)
  · rcases exec_next_cases (he.symm.trans hst) with ⟨cause, info, hr, rfl⟩ | heff
    · exact (hs.advance (fetch_ok_pc_lt hw)).latch (hr.consistent _)
    · exact hs.of_effect (fetch_ok_pc_lt hw) heff

/-- Settles O54: the reset state is one that a reset leaves. -/
theorem resetHasInvariant : Obligations.ResetHasInvariant := State.Inv.zeroed State.reset reset_mem_wf

/-- A load that succeeds leaves the memory of its image and zeroes everything else (R260). -/
theorem hostLoad_ok {font : Config.Font} {image : Option (List Byte)} {s t : State}
    (h : hostLoad font image s = .ok t) : ∃ bytes, t = s.zeroed (loadedMemory font bytes) := by
  cases image with
  | none => cases h
  | some bytes =>
    rw [hostLoad] at h
    split at h
    · cases h
    · exact ⟨bytes, (Except.ok.inj h).symm⟩

/-- A cycle keeps the invariant by `stepKeepsInvariant`; a host step leaves the clauses' fields alone or zeroes them. -/
theorem move_keeps_inv {m : Move} {s t : State} (hs : s.Inv) (h : move m s = some t) : t.Inv := by
  cases m with
  | cycle =>
    simp only [move] at h
    split at h
    · exact Option.some.inj h ▸ stepKeepsInvariant s _ hs ‹_›
    · cases h
    · cases h
  | load font image =>
    simp only [move] at h
    split at h
    · obtain ⟨bytes, hb⟩ := hostLoad_ok ‹_›
      exact Option.some.inj h ▸ hb ▸ .zeroed s (loadedMemory_wf font bytes)
    · cases h
  | reset => exact Option.some.inj h ▸ .zeroed s hs.memWf
  | keyIn k16 => exact Option.some.inj h ▸ { hs with }
  | timerTick => exact Option.some.inj h ▸ { hs with }

/-- Settles O53, by induction on the sequence of moves. -/
theorem movesKeepInvariant : Obligations.MovesKeepInvariant := by
  refine ⟨fun m s t hs h => move_keeps_inv hs h, fun ms => ?_⟩
  induction ms with
  | nil => exact fun s t hs h => Option.some.inj h ▸ hs
  | cons m ms ih =>
    intro s t hs h
    rw [moves] at h
    split at h
    · cases h
    · exact ih _ t (move_keeps_inv hs ‹_›) h

end Sys2Proof.Machine

/-! ### Stored words and the next fetch

A fetch inside a block of bytes just written reads two of its bytes (R62); FX55 and FX33 each write one such block. -/

namespace Sys2Proof.Machine

/-- A fetch that reads below 4096 answers the word of the two bytes at pc (R71). -/
theorem fetch_of_lt {s : State} (h : s.pc.toNat + 1 < 4096) :
    fetch s = .ok (wordOfBytes (s.mem.read s.pc.toNat) (s.mem.read (s.pc.toNat + 1))) := by
  rcases fetch_cases s with ⟨-, hf⟩ | ⟨hpc, -⟩ | ⟨hpc, -⟩
  · exact hf
  · omega
  · omega

/-- A fetch whose two bytes both lie in a block just written answers their word (R62). -/
theorem fetch_writeBlock {t : State} {m : Memory} {base k : Nat} {bs : List Byte} {hi lo : Byte}
    (hmem : t.mem = writeBlock m base bs) (hbase : base + bs.length ≤ 4096) (hpc : t.pc.toNat = base + k)
    (hhi : bs[k]? = some hi) (hlo : bs[k + 1]? = some lo) : fetch t = .ok (wordOfBytes hi lo) := by
  obtain ⟨hk, rfl⟩ := List.getElem?_eq_some_iff.1 hhi
  obtain ⟨hk1, rfl⟩ := List.getElem?_eq_some_iff.1 hlo
  have read_hi : t.mem.read t.pc.toNat = bs[k] := by
    rw [hmem, hpc, read_writeBlock m base bs hbase k]
  have read_lo : t.mem.read (t.pc.toNat + 1) = bs[k + 1] := by
    rw [hmem, hpc, Nat.add_assoc, read_writeBlock m base bs hbase (k + 1)]
  rw [fetch_of_lt (by omega), read_hi, read_lo]

/-- FX55 in range stores V0..VX as one block and advances I (R196). -/
theorem exec_ldMiVx_of_lt {x : RegIx} {s : State} (h : s.i.toNat + x.val < 4096) :
    exec (.ldMiVx x) s = .next ((s.setMem (writeBlock s.mem s.i.toNat (s.regBytes x))).advanceI
      (BitVec.ofNat 16 (x.val + 1))) :=
  withRange_of_le h _ _ _

/-- FX33 in range stores the three digits as one block (R193). -/
theorem exec_ldBVx_of_lt {x : RegIx} {s : State} (h : s.i.toNat + 2 < 4096) :
    exec (.ldBVx x) s = .next (s.setMem (writeBlock s.mem s.i.toNat (bcdDigits (s.reg x)))) :=
  withRange_of_le h _ _ _

/-- The k-th stored byte is V[k], for k up to X (R196). -/
theorem State.regBytes_getElem? (s : State) {x : RegIx} {k : Nat} (h : k ≤ x.val) :
    (s.regBytes x)[k]? = some (s.reg ⟨k, by omega⟩) :=
  List.getElem?_eq_some_iff.2 ⟨by rw [s.regBytes_length]; omega, s.regBytes_getElem x k _⟩

/-- The three stored bytes are the decimal digits; no digit is too large for its byte (R193). -/
theorem bcdDigits_eq (b : Byte) : ∃ hundreds tens ones : Byte, bcdDigits b = [hundreds, tens, ones] ∧
    hundreds.toNat = b.toNat / 100 ∧ tens.toNat = b.toNat / 10 % 10 ∧ ones.toNat = b.toNat % 10 := by
  have hb := b.isLt
  refine ⟨_, _, _, rfl, Nat.mod_eq_of_lt ?_, Nat.mod_eq_of_lt ?_, Nat.mod_eq_of_lt ?_⟩ <;> omega

/-- After FX33, a pc at the first or the second digit fetches it and the next one. -/
theorem exec_ldBVx_fetch {x : RegIx} {k : Nat} {s : State} {hi lo : Byte} (hr : s.i.toNat + 2 < 4096)
    (hpc : s.pc.toNat = s.i.toNat + k) (hhi : (bcdDigits (s.reg x))[k]? = some hi)
    (hlo : (bcdDigits (s.reg x))[k + 1]? = some lo) :
    ∃ t w, exec (.ldBVx x) s = .next t ∧ fetch t = .ok w ∧ w.toNat = 256 * hi.toNat + lo.toNat :=
  ⟨_, _, exec_ldBVx_of_lt hr, fetch_writeBlock rfl hr hpc hhi hlo, wordOfBytes_toNat hi lo⟩

/-- Settles O33: the bytes each instruction stores form one block, and the fetch reads two neighbours of it. -/
theorem storeSeenByNextFetch : Obligations.StoreSeenByNextFetch := by
  refine ⟨fun x k s hr hk hpc => ?_, fun x s hr hpc => ?_, fun x s hr hpc => ?_⟩
  · have hbase : s.i.toNat + (s.regBytes x).length ≤ 4096 := by
      rw [s.regBytes_length]
      exact hr
    exact ⟨_, _, exec_ldMiVx_of_lt hr,
      fetch_writeBlock rfl hbase hpc (s.regBytes_getElem? (by omega)) (s.regBytes_getElem? hk),
      wordOfBytes_toNat _ _⟩
  · obtain ⟨hundreds, tens, ones, hd, hh, ht, -⟩ := bcdDigits_eq (s.reg x)
    rw [← hh, ← ht]
    exact exec_ldBVx_fetch (k := 0) hr hpc (hd ▸ rfl) (hd ▸ rfl)
  · obtain ⟨hundreds, tens, ones, hd, -, ht, ho⟩ := bcdDigits_eq (s.reg x)
    rw [← ht, ← ho]
    exact exec_ldBVx_fetch (k := 1) hr hpc (hd ▸ rfl) (hd ▸ rfl)

end Sys2Proof.Machine

/-! ### Decoding and encoding

One inversion lemma, `decodeWord_decoded`, says for every word what the decoder makes of it: the instruction whose encoding
it is, or the DecodeError of a word outside the opcode map. -/

namespace Sys2Proof.Machine

/-! #### The fields as numbers -/

theorem fieldN_toNat (w : Word) : (fieldN w).toNat = w.toNat % 16 := by
  rw [fieldN_eq, lowNibble_toNat]

theorem fieldNN_toNat (w : Word) : (fieldNN w).toNat = w.toNat % 256 := by
  rw [fieldNN_eq, lowByte_toNat]

/-! #### The fields of a word built from fields (R12, R75) -/

section
variable (t : Nibble) (x y : RegIx) (n : Nibble) (nn : Byte) (nnn : Imm12)

@[simp] theorem fieldT_wordNNN : fieldT (wordNNN t nnn) = t := by
  apply BitVec.eq_of_toNat_eq
  rw [fieldT_toNat, wordNNN_toNat]
  omega

@[simp] theorem fieldNNN_wordNNN : fieldNNN (wordNNN t nnn) = nnn := by
  apply BitVec.eq_of_toNat_eq
  rw [fieldNNN_eq, lowAddr_toNat, wordNNN_toNat]
  omega

@[simp] theorem fieldT_wordXNN : fieldT (wordXNN t x nn) = t := by
  apply BitVec.eq_of_toNat_eq
  rw [fieldT_toNat, wordXNN_toNat]
  omega

@[simp] theorem fieldX_wordXNN : fieldX (wordXNN t x nn) = x := by
  apply Fin.ext
  rw [fieldX_eq, nibbleX_val, wordXNN_toNat]
  omega

@[simp] theorem fieldNN_wordXNN : fieldNN (wordXNN t x nn) = nn := by
  apply BitVec.eq_of_toNat_eq
  rw [fieldNN_toNat, wordXNN_toNat]
  omega

@[simp] theorem fieldT_wordXYN : fieldT (wordXYN t x y n) = t := fieldT_wordXNN t x _

@[simp] theorem fieldX_wordXYN : fieldX (wordXYN t x y n) = x := fieldX_wordXNN t x _

@[simp] theorem fieldY_wordXYN : fieldY (wordXYN t x y n) = y := by
  apply Fin.ext
  rw [fieldY_eq, nibbleY_val, wordXYN_toNat]
  omega

@[simp] theorem fieldN_wordXYN : fieldN (wordXYN t x y n) = n := by
  apply BitVec.eq_of_toNat_eq
  rw [fieldN_toNat, wordXYN_toNat]
  omega

end

/-! #### A word is built from its own fields: no bit is lost -/

section
variable {w : Word} {t : Nibble} (hT : (fieldT w).toNat = t.toNat)
include hT

theorem wordNNN_fields : wordNNN t (fieldNNN w) = w := by
  apply BitVec.eq_of_toNat_eq
  rw [wordNNN_toNat, ← hT, fieldT_toNat, fieldNNN_eq, lowAddr_toNat]
  omega

theorem wordXNN_fields {nn : Byte} (hNN : fieldNN w = nn) : wordXNN t (fieldX w) nn = w := by
  apply BitVec.eq_of_toNat_eq
  rw [wordXNN_toNat, ← hT, ← hNN, fieldT_toNat, fieldX_eq, nibbleX_val, fieldNN_toNat]
  omega

theorem wordXYN_fields {n : Nibble} (hN : (fieldN w).toNat = n.toNat) :
    wordXYN t (fieldX w) (fieldY w) n = w := by
  apply BitVec.eq_of_toNat_eq
  rw [wordXYN_toNat, ← hT, ← hN, fieldT_toNat, fieldX_eq, nibbleX_val, fieldY_eq, nibbleY_val, fieldN_toNat]
  omega

end

/-! #### What the decoder makes of a word -/

/-- R82's exception on row SYS. -/
theorem wellFormed_sys_iff (nnn : Imm12) :
    (Instr.sys nnn).WellFormed = true ↔ nnn ≠ 0x0E0#12 ∧ nnn ≠ 0x0EE#12 := by
  simp [Instr.WellFormed]

/-- The words of R83, by their fields: the tag has an operation, the second discriminant does not. -/
def NoOperation (w : Word) : Prop :=
  (((fieldT w).toNat = 5 ∨ (fieldT w).toNat = 9) ∧ fieldN w ≠ 0#4) ∨
  ((fieldT w).toNat = 8 ∧ (fieldN w).toNat ∈ [0x8, 0x9, 0xA, 0xB, 0xC, 0xD, 0xF]) ∨
  ((fieldT w).toNat = 14 ∧ fieldNN w ∉ [0x9E#8, 0xA1#8]) ∨
  ((fieldT w).toNat = 15 ∧ fieldNN w ∉ [0x07#8, 0x0A#8, 0x15#8, 0x18#8, 0x1E#8, 0x29#8, 0x33#8, 0x55#8, 0x65#8])

/-- The same words as numbers. -/
theorem noOperation_iff (w : Word) : NoOperation w ↔
    ((w.toNat / 4096 = 5 ∨ w.toNat / 4096 = 9) ∧ w.toNat % 16 ≠ 0) ∨
    (w.toNat / 4096 = 8 ∧ w.toNat % 16 ∈ [0x8, 0x9, 0xA, 0xB, 0xC, 0xD, 0xF]) ∨
    (w.toNat / 4096 = 14 ∧ w.toNat % 256 ∉ [0x9E, 0xA1]) ∨
    (w.toNat / 4096 = 15 ∧ w.toNat % 256 ∉ [0x07, 0x0A, 0x15, 0x18, 0x1E, 0x29, 0x33, 0x55, 0x65]) := by
  simp [NoOperation, ← BitVec.toNat_inj, fieldT_toNat, fieldN_toNat, fieldNN_toNat]

/-- The two answers of the decoder: an instruction whose encoding is the word, or the DecodeError of a word of R83. -/
inductive Decoded (w : Word) : Except DecodeError Instr → Prop
  | ok {i : Instr} (encodes : encode i = w) (wf : i.WellFormed = true) (op : ¬ NoOperation w) : Decoded w (.ok i)
  | noOperation (noOp : NoOperation w) : Decoded w (.error (.noOperation w))

section
variable {w : Word}

/-- A tag with one operation decides alone (R78). -/
theorem not_noOperation_of_tag (h : (fieldT w).toNat ∉ [5, 8, 9, 14, 15]) : ¬ NoOperation w := by
  simp only [List.mem_cons, List.not_mem_nil, or_false, not_or] at h
  simp [NoOperation, h]

theorem decodeTag0_decoded (hT : (fieldT w).toNat = 0) : Decoded w (.ok (decodeTag0 w)) := by
  have op : ¬ NoOperation w := not_noOperation_of_tag (by simp [hT])
  have sys : encode (.sys (fieldNNN w)) = w := wordNNN_fields hT
  unfold decodeTag0
  split_ifs with hcls hret
  · exact .ok hcls.symm rfl op
  · exact .ok hret.symm rfl op
  · exact .ok sys ((wellFormed_sys_iff _).2
      ⟨fun h => hcls (sys.symm.trans (h ▸ rfl)), fun h => hret (sys.symm.trans (h ▸ rfl))⟩) op

theorem decodeTag8_decoded (hT : (fieldT w).toNat = 8) : Decoded w (decodeTag8 w) := by
  unfold decodeTag8
  split
  case h_10 =>
    refine .noOperation (.inr (.inl ⟨hT, ?_⟩))
    simp only [imp_false, List.mem_cons, List.not_mem_nil, or_false] at *
    have := (fieldN w).isLt
    omega
  all_goals exact .ok (wordXYN_fields hT ‹_›) rfl (by simp [NoOperation, *])

theorem decodeTagE_decoded (hT : (fieldT w).toNat = 14) : Decoded w (decodeTagE w) := by
  unfold decodeTagE
  split_ifs with hskp hsknp
  · exact .ok (wordXNN_fields hT hskp) rfl (by simp [NoOperation, hT, hskp])
  · exact .ok (wordXNN_fields hT hsknp) rfl (by simp [NoOperation, hT, hsknp])
  · exact .noOperation (.inr (.inr (.inl ⟨hT, by simp [hskp, hsknp]⟩)))

theorem decodeTagF_decoded (hT : (fieldT w).toNat = 15) : Decoded w (decodeTagF w) := by
  unfold decodeTagF
  split_ifs
  case neg => exact .noOperation (.inr (.inr (.inr ⟨hT, by simp [*]⟩)))
  all_goals exact .ok (wordXNN_fields hT ‹_›) rfl (by simp [NoOperation, *])

/-- The tags 5 and 9 are decoded by N alone, which has to be 0 (R79). -/
theorem ite_fieldN_decoded {i : Instr} (hT : (fieldT w).toNat = 5 ∨ (fieldT w).toNat = 9)
    (encodes : (fieldN w).toNat = 0 → encode i = w) (wf : i.WellFormed = true) :
    Decoded w (if fieldN w = 0#4 then .ok i else .error (.noOperation w)) := by
  split_ifs with hN
  · exact .ok (encodes (congrArg BitVec.toNat hN)) wf (by rcases hT with hT | hT <;> simp [NoOperation, hT, hN])
  · exact .noOperation (.inl ⟨hT, hN⟩)

/-- One walk through the opcode map (R81): every word decodes to an instruction it is the encoding of, or is a word of
R83. The case `h_k` is the tag k - 1. -/
theorem decodeWord_decoded (w : Word) : Decoded w (decodeWord w) := by
  unfold decodeWord
  split
  case h_1 hT => exact decodeTag0_decoded hT
  case h_6 hT => exact ite_fieldN_decoded (.inl hT) (fun hN => wordXYN_fields hT hN) rfl
  case h_9 hT => exact decodeTag8_decoded hT
  case h_10 hT => exact ite_fieldN_decoded (.inr hT) (fun hN => wordXYN_fields hT hN) rfl
  case h_14 hT => exact .ok (wordXYN_fields hT rfl) rfl (not_noOperation_of_tag (by simp [hT]))
  case h_15 hT => exact decodeTagE_decoded hT
  case h_16 =>
    refine decodeTagF_decoded ?_
    simp only [imp_false] at *
    have := (fieldT w).isLt
    omega
  case h_2 hT | h_3 hT | h_11 hT | h_12 hT =>
    exact .ok (wordNNN_fields hT) rfl (not_noOperation_of_tag (by simp [hT]))
  case h_4 hT | h_5 hT | h_7 hT | h_8 hT | h_13 hT =>
    exact .ok (wordXNN_fields hT rfl) rfl (not_noOperation_of_tag (by simp [hT]))

end

/-! #### Decoding what was encoded -/

theorem decodeTag0_wordNNN {nnn : Imm12} (hcls : nnn ≠ 0x0E0#12) (hret : nnn ≠ 0x0EE#12) :
    decodeTag0 (wordNNN 0#4 nnn) = .sys nnn := by
  have word_ne {m : Imm12} (h : nnn ≠ m) : wordNNN 0#4 nnn ≠ wordNNN 0#4 m := fun e =>
    h (by simpa using congrArg fieldNNN e)
  have ne_cls : wordNNN 0#4 nnn ≠ 0x00E0#16 := word_ne hcls
  have ne_ret : wordNNN 0#4 nnn ≠ 0x00EE#16 := word_ne hret
  rw [decodeTag0, if_neg ne_cls, if_neg ne_ret, fieldNNN_wordNNN]

/-- The fields of the encoding are the operands and the discriminants the decoder looks at; the cases are the ways it does:
by the tag alone (and N = 0 for the tags 5 and 9), or by the tag and a second discriminant (R78, R79). -/
theorem decodeWord_encode {i : Instr} (wf : i.WellFormed = true) : decodeWord (encode i) = .ok i := by
  cases i with
  | cls | ret => rfl
  | sys nnn =>
    obtain ⟨hcls, hret⟩ := (wellFormed_sys_iff nnn).1 wf
    simp [encode, decodeWord, decodeTag0_wordNNN hcls hret]
  | jp nnn | call nnn | ldI nnn | jpV0 nnn => simp [encode, decodeWord]
  | seImm x nn | sneImm x nn | ldImm x nn | addImm x nn | rnd x nn => simp [encode, decodeWord]
  | seReg x y | sneReg x y | drw x y n => simp [encode, decodeWord]
  | ldReg x y | orReg x y | andReg x y | xorReg x y | addReg x y | sub x y | shr x y | subn x y | shl x y =>
    simp [encode, decodeWord, decodeTag8]
  | skp x | sknp x => simp [encode, decodeWord, decodeTagE]
  | ldVxDt x | ldVxK x | ldDtVx x | ldStVx x | addIVx x | ldFVx x | ldBVx x | ldMiVx x | ldVxMi x =>
    simp [encode, decodeWord, decodeTagF]

/-! #### The bytes of a word (R54) -/

theorem wordOfBytes_extractLsb' (w : Word) : wordOfBytes (w.extractLsb' 8 8) (w.extractLsb' 0 8) = w := by
  apply BitVec.eq_of_toNat_eq
  rw [wordOfBytes_toNat, BitVec.extractLsb'_toNat, BitVec.extractLsb'_toNat, Nat.shiftRight_eq_div_pow]
  omega

/-- Two bytes decode as their word does, and nothing else is consumed. -/
theorem decodeBytes_ok_iff {hi lo : Byte} {rest : List Byte} {i : Instr} :
    decodeBytes (hi :: lo :: rest) = .ok (i, rest) ↔ decodeWord (wordOfBytes hi lo) = .ok i := by
  rw [decodeBytes]
  cases decodeWord (wordOfBytes hi lo) <;> simp

/-! #### The obligations -/

/-- Settles O42: the word by `decodeWord_encode`, and the bytes because a word is the word of its bytes. -/
theorem decodeOfEncode : Obligations.DecodeOfEncode := by
  intro i wf
  have hword := decodeWord_encode wf
  exact ⟨hword, decodeBytes_ok_iff.2 ((wordOfBytes_extractLsb' (encode i)).symm ▸ hword)⟩

/-- Settles O43: an instruction the decoder answers is one whose encoding is the word. -/
theorem encodeOfDecode : Obligations.EncodeOfDecode := by
  intro w i h
  have hd := decodeWord_decoded w
  rw [h] at hd
  obtain ⟨encodes, wf, -⟩ := hd
  exact ⟨encodes, wf⟩

/-- Settles O41: the decoder's two answers exclude each other. -/
theorem decodeErrorWordsExactly : Obligations.DecodeErrorWordsExactly := by
  intro w
  rw [← noOperation_iff]
  have hd := decodeWord_decoded w
  generalize decodeWord w = r at hd
  cases hd with
  | @ok i _ _ op => exact ⟨iff_of_false nofun op, .inr ⟨i, rfl⟩⟩
  | noOperation noOp => exact ⟨iff_of_true rfl noOp, .inl rfl⟩

/-- Settles O44: eight closed evaluations of the decoder. -/
theorem sampleWordsDecode : Obligations.SampleWordsDecode := by
  unfold Obligations.SampleWordsDecode
  decide

end Sys2Proof.Machine

/-! ### The fetch and the cycle

From a state with no fault latched, the cycle in the forward direction of `step_cases`: what it answers in each of its three
cases. -/

namespace Sys2Proof.Machine

/-- Settles O38: below 4096 the fetch answers the word of the two bytes, high byte first. -/
theorem fetchIsBigEndian : Obligations.FetchIsBigEndian := fun _ hpc =>
  ⟨_, fetch_of_lt (by omega), wordOfBytes_toNat _ _⟩

/-- The first read is past memory (R73). -/
theorem fetch_of_ge {s : State} (h : 4096 ≤ s.pc.toNat) : fetch s = .error s.pc.toNat := by
  rcases fetch_cases s with ⟨hpc, -⟩ | ⟨hpc, -⟩ | ⟨-, hf⟩
  · omega
  · omega
  · exact hf

/-- The second read is past memory (R73). -/
theorem fetch_of_last {s : State} (h : s.pc.toNat = 4095) : fetch s = .error 4096 := by
  rcases fetch_cases s with ⟨hpc, -⟩ | ⟨-, hf⟩ | ⟨hpc, -⟩
  · omega
  · exact hf
  · omega

section
variable {s : State} (hs : s.fault = none)
include hs

theorem step_of_fetch_error {a : Nat} (ha : fetch s = .error a) : step s = fetchFault a s := by
  simp only [step, cycleBy, hs, ha]

theorem step_of_decode_error {w : Word} {e : DecodeError} (hw : fetch s = .ok w) (hd : decodeWord w = .error e) :
    step s = .next s.advance := by
  simp only [step, cycleBy, hs, hw, hd, decodeErrorCycle]

theorem step_of_decode_ok {w : Word} {i : Instr} (hw : fetch s = .ok w) (hd : decodeWord w = .ok i) :
    step s = exec i s.advance := by
  simp only [step, cycleBy, hs, hw, hd]

theorem decodeErrorOut_of_decode_error {w : Word} {e : DecodeError} (hw : fetch s = .ok w)
    (hd : decodeWord w = .error e) : decodeErrorOut s = some (w, s.pc) := by
  simp only [decodeErrorOut, hs, hw, hd]

end

/-- Settles O37: the two bytes at pc are the fetched word, and a word that decodes is executed after the advance. -/
theorem stepRunsDecodedInstruction : Obligations.StepRunsDecodedInstruction := fun _ _ hs hpc hb =>
  step_of_decode_ok hs (fetch_of_lt hpc) (decodeBytes_ok_iff.1 hb)

/-- Settles O39: each of the two reads past memory ends the cycle in the fault of a fetch. -/
theorem fetchPastMemoryFaults : Obligations.FetchPastMemoryFaults := fun _ hs =>
  ⟨fun hpc => step_of_fetch_error hs (fetch_of_ge hpc), fun hpc => step_of_fetch_error hs (fetch_of_last hpc)⟩

/-- Settles O40: a DecodeError cycle is the advance, and its report is the fetched word and its address. -/
theorem decodeErrorOnlyAdvancesPc : Obligations.DecodeErrorOnlyAdvancesPc := fun _ _ hs hw hd =>
  ⟨step_of_decode_error hs hw hd, decodeErrorOut_of_decode_error hs hw hd⟩

end Sys2Proof.Machine

/-! ### Control transfer

What each of the five instructions answers (40_control_flow.md), over rules that the other families share: a word is decoded
by being the encoding of its instruction, a fault is a latched record, a write of pc is nothing else. -/

namespace Sys2Proof.Machine

/-! #### Words by their fixed bits (R82) -/

/-- A word decodes to the instruction it is the encoding of. -/
theorem decodeWord_of_encode {i : Instr} {w : Word} (encodes : encode i = w) (wf : i.WellFormed = true) :
    decodeWord w = .ok i :=
  encodes ▸ decodeWord_encode wf

/-- The mask of a row with no operand fixes the whole word. -/
theorem word_eq_of_mask_FFFF {w p : Word} (h : w &&& 0xFFFF#16 = p) : w = p :=
  BitVec.and_allOnes.symm.trans h

/-- A word whose mask fixes the tag alone is the tag and its NNN. -/
theorem wordNNN_lowAddr {w : Word} {t : Nibble} (h : w &&& 0xF000#16 = wordNNN t 0#12) : wordNNN t (lowAddr w) = w := by
  have hT : fieldT w = t := (fieldT_of_mask_F000 h).trans (fieldT_wordNNN t 0#12)
  rw [← fieldNNN_eq, wordNNN_fields (congrArg BitVec.toNat hT)]

/-- A word of tag 0 that is neither CLS nor RET carries a SYS that is an instruction (R81). -/
theorem wellFormed_sys_lowAddr {w : Word} (encodes : encode (.sys (lowAddr w)) = w) (hcls : w ≠ 0x00E0#16)
    (hret : w ≠ 0x00EE#16) : (Instr.sys (lowAddr w)).WellFormed = true :=
  (wellFormed_sys_iff _).2
    ⟨fun h => hcls (encodes.symm.trans (h ▸ rfl)), fun h => hret (encodes.symm.trans (h ▸ rfl))⟩

/-! #### Faults and frames -/

/-- Taking a fault is the statement `Faults` with the instruction's own word (R232 to R234). -/
theorem faults_of_raiseFault {i : Instr} {s : State} {cause : FaultCause} {info : Option Nat} {w : Word}
    (h : exec i s = raiseFault cause i info s) (hw : encode i = w) : Faults i s cause w info := by
  rw [Faults, h, raiseFault_eq, hw]

theorem onlyPc_setPc (s : State) (a : Word) : OnlyPc s (s.setPc a) :=
  ⟨fun _ _ => rfl, rfl, fun _ => rfl, ⟨rfl, rfl⟩, ⟨rfl, rfl⟩, ⟨rfl, rfl⟩, fun _ => rfl, rfl⟩

/-- The frame of CALL and RET: everything but pc and the call stack is unchanged (R102, R104). -/
def OnlyPcAndStack (s t : State) : Prop :=
  SameRegsBut [] s t ∧ t.i = s.i ∧ SameMem s t ∧ t.stackCap = s.stackCap ∧ SameTimers s t ∧ SameInputs s t ∧
    SameFb s t ∧ t.draws = s.draws

theorem onlyPcAndStack_setPc (s : State) (stack : List Word) (a : Word) :
    OnlyPcAndStack s (State.setPc { s with stack := stack } a) :=
  ⟨fun _ _ => rfl, rfl, fun _ => rfl, rfl, ⟨rfl, rfl⟩, ⟨rfl, rfl⟩, fun _ => rfl, rfl⟩

/-! #### Jump targets -/

@[simp] theorem addrOf_toNat (nnn : Imm12) : (addrOf nnn).toNat = nnn.toNat :=
  BitVec.toNat_setWidth_of_le (by decide)

/-- The sum of a byte and a 12-bit address does not wrap (R108). -/
theorem State.jumpOffset_toNat (s : State) (nnn : Imm12) :
    (s.jumpOffset nnn).toNat = (s.reg 0).toNat + nnn.toNat := by
  have hreg := (s.reg 0).isLt
  have hnnn := nnn.isLt
  rw [jumpOffset_eq_ofNat, BitVec.toNat_ofNat, Nat.mod_eq_of_lt (by omega)]

/-! #### CALL and RET, case by case -/

section
variable {s : State}

theorem State.pop_of_nil (h : s.stack = []) : s.pop = none := by
  simp [pop, h]

theorem State.pop_of_append {rest : List Word} {a : Word} (h : s.stack = rest ++ [a]) :
    s.pop = some (a, { s with stack := rest }) := by
  simp [pop, h]

theorem exec_ret_of_nil (h : s.stack = []) : exec .ret s = raiseFault .stackUnderflow .ret none s := by
  simp only [exec, execRet, State.pop_of_nil h]

theorem exec_ret_of_append {rest : List Word} {a : Word} (h : s.stack = rest ++ [a]) :
    exec .ret s = .next (State.setPc { s with stack := rest } a) := by
  simp only [exec, execRet, State.pop_of_append h]

variable (nnn : Imm12)

theorem exec_call_at_capacity (h : s.stackCap = some s.stack.length) :
    exec (.call nnn) s = raiseFault .stackOverflow (.call nnn) none s :=
  if_pos h

theorem exec_call_below_capacity (h : s.stackCap ≠ some s.stack.length) :
    exec (.call nnn) s = .next ((s.push s.pc).setPc (addrOf nnn)) :=
  if_neg h

end

/-! #### The obligations -/

/-- Settles O2: the stack has a top or is empty, and RET answers each by its own equation. -/
theorem retPopsReturnAddress : Obligations.RetPopsReturnAddress := by
  refine ⟨fun w hw => ?_, fun s rest a h => ?_, fun s h => ?_⟩
  · exact decodeWord_of_encode (word_eq_of_mask_FFFF hw).symm rfl
  · exact ⟨_, exec_ret_of_append h, rfl, rfl, onlyPcAndStack_setPc s rest a⟩
  · exact faults_of_raiseFault (exec_ret_of_nil h) rfl

/-- Settles O4: the depth equals the capacity or not, and CALL answers each by its own equation. -/
theorem callPushesReturnAddress : Obligations.CallPushesReturnAddress := by
  refine ⟨fun w hw => ?_, fun nnn s h => ?_, fun nnn s h => ?_⟩
  · exact decodeWord_of_encode (wordNNN_lowAddr hw) rfl
  · exact ⟨_, exec_call_below_capacity nnn h, rfl, addrOf_toNat nnn, onlyPcAndStack_setPc s _ _⟩
  · exact faults_of_raiseFault (exec_call_at_capacity nnn h) (encode_call nnn)

/-- Settles O5: the top RET finds is the pc CALL pushed, whatever else the code between has changed. -/
theorem returnResumesAfterCall : Obligations.ReturnResumesAfterCall := by
  intro nnn s t u hcap hcall hstack
  obtain rfl := Host.Outcome.next.inj ((exec_call_below_capacity nnn hcap).symm.trans hcall)
  have hu : u.stack = s.stack ++ [s.pc] := hstack
  exact ⟨_, exec_ret_of_append hu, rfl, rfl⟩

/-- Settles O1: the word is the encoding of a SYS that is an instruction, and SYS answers its own state. -/
theorem sysIsNoOperation : Obligations.SysIsNoOperation := by
  refine ⟨fun w hw hcls hret => ?_, fun nnn s => rfl⟩
  have encodes : encode (.sys (lowAddr w)) = w := wordNNN_lowAddr hw
  exact decodeWord_of_encode encodes (wellFormed_sys_lowAddr encodes hcls hret)

/-- Settles O3: JP is one write of pc. -/
theorem jpSetsPc : Obligations.JpSetsPc :=
  ⟨fun _ hw => decodeWord_of_encode (wordNNN_lowAddr hw) rfl,
    fun nnn s => ⟨_, rfl, addrOf_toNat nnn, onlyPc_setPc s _⟩⟩

/-- Settles O6: JP V0 is one write of pc, whose value is the exact sum. -/
theorem jpV0AddsRegisterZero : Obligations.JpV0AddsRegisterZero :=
  ⟨fun _ hw => decodeWord_of_encode (wordNNN_lowAddr hw) rfl,
    fun nnn s => ⟨_, rfl, s.jumpOffset_toNat nnn, onlyPc_setPc s _⟩⟩

end Sys2Proof.Machine

/-! ### The display

A drawing is known by `Draws`: which cells it turns over and what its flag reports (41_display.md). DRW's drawing is one whose
cells are those of `SpriteSets`; the laws of R123 to R125 are facts about drawings. -/

namespace Sys2Proof.Machine

/-! #### Rows are wrapped modulo 32 (R123) -/

section
variable {y y' : Nat} (h : y ≡ y' [MOD 32])
include h

theorem cellIndex_congr_row (x : Nat) : cellIndex x y = cellIndex x y' :=
  Fin.ext (congrArg (· * 64 + x % 64) h)

theorem drawRow_congr_row (x0 : Nat) (row : Byte) (c : Canvas) : drawRow x0 y row c = drawRow x0 y' row c := by
  simp only [drawRow, cellIndex_congr_row h]

theorem drawRows_congr_row (x0 : Nat) (rows : List Byte) (c : Canvas) : drawRows x0 y rows c = drawRows x0 y' rows c := by
  induction rows generalizing y y' c with
  | nil => rfl
  | cons row rows ih => rw [drawRows, drawRows, drawRow_congr_row h, ih (h.add_right 1)]

end

/-! #### Drawings (R124, R125) -/

section
variable {hit : CellIx → Prop} {f : Framebuffer} {d : Canvas}

/-- The flag of a drawing that starts with none, as the two values of VF (R124). -/
theorem Draws.flagByte_eq (h : Draws hit (f, false) d) :
    ((∃ j, hit j ∧ f.cell j = true) → flagByte d.2 = 1#8) ∧ ((¬ ∃ j, hit j ∧ f.cell j = true) → flagByte d.2 = 0#8) := by
  have hflag : d.2 = true ↔ ∃ j, hit j ∧ f.cell j = true := by simpa using h.flag
  exact ⟨fun hc => if_pos (hflag.2 hc), fun hc => if_neg (mt hflag.1 hc)⟩

variable {e : Canvas} {b : Bool}

/-- Drawing on the same cells again restores the framebuffer: a cell is turned over twice or not at all (R125). -/
theorem Draws.restores (h : Draws hit (f, b) d) {b' : Bool} (h' : Draws hit (d.1, b') e) : e.1 = f := by
  refine Framebuffer.ext_cell fun j => ?_
  by_cases hj : hit j
  · rw [h'.turned j hj, h.turned j hj, Bool.not_not]
  · rw [h'.kept j hj, h.kept j hj]

/-- The cells set under a drawing are those it has turned on (R125). -/
theorem Draws.exists_set_iff (h : Draws hit (f, b) d) :
    (∃ j, hit j ∧ d.1.cell j = true) ↔ ∃ j, hit j ∧ f.cell j = false :=
  exists_congr fun j => and_congr_right fun hj => by rw [h.turned j hj, Bool.not_eq_true']

end

/-! #### The sprite of DRW (R122) -/

/-- The cells under the sprite drawn at the start position are those of `SpriteSets`: each wrap absorbs the reduction of the
start coordinate (R122, R123). -/
theorem rowsHit_iff_spriteSets (s : State) (x y : RegIx) (n : Nibble) (j : CellIx) :
    RowsHit ((s.reg x).toNat % 64) ((s.reg y).toNat % 64) (readBlock s.mem s.i.toNat n.toNat) j ↔
      SpriteSets s x y n j := by
  have hcell (r c : Nat) : j = cellIndex ((s.reg x).toNat % 64 + c) ((s.reg y).toNat % 64 + r) ↔
      j.val = ((s.reg y).toNat + r) % 32 * 64 + ((s.reg x).toNat + c) % 64 := by
    simp only [Fin.ext_iff, cellIndex]
    omega
  simp only [RowsHit, SpriteSets, readBlock_getElem, readBlock_length, exists_prop, hcell]

theorem State.drawn_draws (s : State) (x y : RegIx) (n : Nibble) :
    Draws (SpriteSets s x y n) (s.fb, false) (s.drawn x y n) := by
  have hl : (readBlock s.mem s.i.toNat n.toNat).length ≤ 32 := by
    have := n.isLt
    rw [readBlock_length]
    omega
  exact (drawRows_draws _ _ _ _ hl).congr (rowsHit_iff_spriteSets s x y n)

/-- The cells of a sprite depend on its bytes, I and the two coordinates alone (R125). -/
theorem spriteSets_congr {s u : State} {x y : RegIx} {n : Nibble}
    (hmem : ∀ a, s.i.toNat ≤ a → a < s.i.toNat + n.toNat → u.mem.read a = s.mem.read a) (hi : u.i = s.i)
    (hx : u.reg x = s.reg x) (hy : u.reg y = s.reg y) (j : CellIx) : SpriteSets u x y n j ↔ SpriteSets s x y n j := by
  simp only [SpriteSets, hi, hx, hy]
  refine exists_congr fun r => exists_congr fun c => and_congr_right fun hr => ?_
  rw [hmem _ (by omega) (by omega)]

/-! #### The range check, case by case (R64, R194) -/

section
variable {base n : Nat}

theorem withRange_of_in_range (h : n = 0 ∨ base + n ≤ 4096) (i : Instr) (s t : State) :
    withRange i base n s t = .next t := by
  rw [withRange, (rangeFault_eq_none_iff base n).2 h]

theorem withRange_past_memory (hn : 0 < n) (h : 4096 ≤ base + n - 1) (i : Instr) (s t : State) :
    withRange i base n s t = raiseFault .memoryOutOfRange i (some (base + n - 1)) s := by
  rw [withRange, (rangeFault_eq_some_iff base n _).2 ⟨hn, rfl, h⟩]

end

/-! #### CLS and DRW, case by case -/

/-- The frame of CLS and DRW: everything but the framebuffer and the listed registers is unchanged (R121, R122). -/
def OnlyFbAndRegs (xs : List RegIx) (s t : State) : Prop :=
  SameRegsBut xs s t ∧ t.i = s.i ∧ t.pc = s.pc ∧ SameMem s t ∧ SameStack s t ∧ SameTimers s t ∧ SameInputs s t ∧
    t.draws = s.draws

theorem onlyFbAndRegs_setFb (s : State) (f : Framebuffer) : OnlyFbAndRegs [] s (s.setFb f) :=
  ⟨fun _ _ => rfl, rfl, rfl, fun _ => rfl, ⟨rfl, rfl⟩, ⟨rfl, rfl⟩, ⟨rfl, rfl⟩, rfl⟩

theorem OnlyFbAndRegs.setReg {s t : State} {xs : List RegIx} (h : OnlyFbAndRegs xs s t) (x : RegIx) (b : Byte) :
    OnlyFbAndRegs (x :: xs) s (t.setReg x b) := by
  obtain ⟨hregs, hrest⟩ := h
  refine ⟨fun r hr => ?_, hrest⟩
  rw [State.reg_setReg_of_ne t b (List.ne_of_not_mem_cons hr), hregs r (List.not_mem_of_not_mem_cons hr)]

section
variable (x y : RegIx) {n : Nibble} {s : State}

/-- DRW in range draws its sprite, and VF is the flag of the drawing (R122). -/
theorem exec_drw_in_range (h : n.toNat = 0 ∨ s.i.toNat + n.toNat ≤ 4096) :
    exec (.drw x y n) s = .next ((s.setFb (s.drawn x y n).1).setReg vf (flagByte (s.drawn x y n).2)) := by
  rw [exec, execDrw, withRange_of_in_range h, State.setVf_eq]

/-- DRW past memory faults with the highest address (R122, R231). -/
theorem exec_drw_past_memory (hn : 0 < n.toNat) (h : 4096 ≤ s.i.toNat + n.toNat - 1) :
    exec (.drw x y n) s = raiseFault .memoryOutOfRange (.drw x y n) (some (s.i.toNat + n.toNat - 1)) s :=
  withRange_past_memory hn h _ _ _

end

/-- A word whose mask fixes the tag alone is the tag and its X, Y and N. -/
theorem wordXYN_operands {w : Word} {t : Nibble} (h : w &&& 0xF000#16 = wordNNN t 0#12) :
    wordXYN t (nibbleX w) (nibbleY w) (lowNibble w) = w := by
  have hT : fieldT w = t := (fieldT_of_mask_F000 h).trans (fieldT_wordNNN t 0#12)
  rw [← fieldX_eq, ← fieldY_eq, ← fieldN_eq, wordXYN_fields (congrArg BitVec.toNat hT) rfl]

/-! #### The obligations -/

/-- Settles O8: in range DRW is one drawing on the cells of `SpriteSets`, and past memory it is a fault. -/
theorem drwXorsSprite : Obligations.DrwXorsSprite := by
  refine ⟨fun w hw => ?_, fun x y n s h => ?_, fun x y n s hn h => ?_⟩
  · exact decodeWord_of_encode (wordXYN_operands hw) rfl
  · have hd := s.drawn_draws x y n
    obtain ⟨hset, hclear⟩ := hd.flagByte_eq
    refine ⟨_, exec_drw_in_range x y h, hd.turned, hd.kept, fun hc => ?_, fun hc => ?_, ?_⟩
    · rw [State.reg_setReg_self, hset hc]
    · rw [State.reg_setReg_self, hclear hc]
    · exact (onlyFbAndRegs_setFb s _).setReg vf _
  · exact faults_of_raiseFault (exec_drw_past_memory x y hn h) (encode_drw x y n)

/-- Settles O9: 32 divides 64, so both start rows are the same row modulo 32. -/
theorem startRowModulusIsImmaterial : Obligations.StartRowModulusIsImmaterial := fun x0 y rows c =>
  have hrow : y % 64 % 32 = y % 32 % 32 := by omega
  drawRows_congr_row hrow x0 rows c

/-- Settles O10: the second draw is a drawing on the cells of the first, from the framebuffer the first has left. -/
theorem drawingTwiceRestores : Obligations.DrawingTwiceRestores := by
  intro x y n s t u hx hy h hst hmem hi hfb hux huy
  obtain rfl := Host.Outcome.next.inj ((exec_drw_in_range x y h).symm.trans hst)
  have first := s.drawn_draws x y n
  have second : Draws (SpriteSets s x y n) ((s.drawn x y n).1, false) (u.drawn x y n) := by
    have hsprite := spriteSets_congr (s := s) hmem hi (hux.trans (State.reg_setReg_of_ne _ _ hx))
      (huy.trans (State.reg_setReg_of_ne _ _ hy))
    have hu := (u.drawn_draws x y n).congr hsprite
    rwa [hfb] at hu
  obtain ⟨hset, hclear⟩ := second.flagByte_eq
  rw [first.exists_set_iff] at hset hclear
  have hrange : n.toNat = 0 ∨ u.i.toNat + n.toNat ≤ 4096 := hi ▸ h
  refine ⟨_, exec_drw_in_range x y hrange, first.restores second, fun hc => ?_, fun hc => ?_⟩
  · rw [State.reg_setReg_self, hset hc]
  · rw [State.reg_setReg_self, hclear hc]

/-- Settles O7: CLS is one write of the framebuffer, with every cell 0. -/
theorem clsClearsFramebuffer : Obligations.ClsClearsFramebuffer :=
  ⟨fun _ hw => decodeWord_of_encode (word_eq_of_mask_FFFF hw).symm rfl,
    fun s => ⟨_, rfl, Framebuffer.cell_clear, onlyFbAndRegs_setFb s _⟩⟩

end Sys2Proof.Machine

/-! ### The conditional skips

Each of the six is `State.skipIf` on its condition (42_skips.md); the two key skips share `skipOnKey`, which faults where VX
names no key. -/

namespace Sys2Proof.Machine

/-! #### Words of the shapes `T_XNN`, `T_XYN` and `T_X_NN` by their fixed bits (R75, R82) -/

section
variable {w : Word} {t : Nibble}

/-- A word whose mask fixes the tag alone is the tag and its X and NN. -/
theorem wordXNN_operands (h : w &&& 0xF000#16 = wordNNN t 0#12) : wordXNN t (nibbleX w) (lowByte w) = w := by
  have hT : fieldT w = t := (fieldT_of_mask_F000 h).trans (fieldT_wordNNN t 0#12)
  rw [← fieldX_eq, wordXNN_fields (congrArg BitVec.toNat hT) (fieldNN_eq w)]

/-- A word whose mask fixes the tag and N is those two and its X and Y. -/
theorem wordXYN_operands_of_mask_F00F {n : Nibble} (h : w &&& 0xF00F#16 = wordXYN t 0 0 n) :
    wordXYN t (nibbleX w) (nibbleY w) n = w := by
  have hT : fieldT w = t := (fieldT_of_mask_F00F h).trans (fieldT_wordXYN t 0 0 n)
  have hN : fieldN w = n := (fieldN_of_mask_F00F h).trans (fieldN_wordXYN t 0 0 n)
  rw [← fieldX_eq, ← fieldY_eq, wordXYN_fields (congrArg BitVec.toNat hT) (congrArg BitVec.toNat hN)]

/-- A word whose mask fixes the tag and NN is those two and its X. -/
theorem wordXNN_operands_of_mask_F0FF {nn : Byte} (h : w &&& 0xF0FF#16 = wordXNN t 0 nn) :
    wordXNN t (nibbleX w) nn = w := by
  have hT : fieldT w = t := (fieldT_of_mask_F0FF h).trans (fieldT_wordXNN t 0 nn)
  have hNN : fieldNN w = nn := (fieldNN_of_mask_F0FF h).trans (fieldNN_wordXNN t 0 nn)
  rw [← fieldX_eq, wordXNN_fields (congrArg BitVec.toNat hT) hNN]

theorem toNat_div_of_mask_F000 {p : Word} (h : w &&& 0xF000#16 = p) : w.toNat / 4096 = p.toNat / 4096 := by
  rw [← fieldT_toNat, fieldT_of_mask_F000 h, fieldT_toNat]

theorem toNat_and_000F (w : Word) : (w &&& 0x000F#16).toNat = w.toNat % 16 :=
  (BitVec.toNat_and w _).trans (Nat.and_two_pow_sub_one_eq_mod w.toNat 4)

/-- The tags 5 and 9 have an operation only at N = 0 (R79, decision D2). -/
theorem decodeWord_of_lowNibble_ne_zero (tag : w &&& 0xF000#16 = 0x5000#16 ∨ w &&& 0xF000#16 = 0x9000#16)
    (hN : w &&& 0x000F#16 ≠ 0#16) : decodeWord w = .error (.noOperation w) := by
  have tag : w.toNat / 4096 = 5 ∨ w.toNat / 4096 = 9 := tag.imp toNat_div_of_mask_F000 toNat_div_of_mask_F000
  have hN : w.toNat % 16 ≠ 0 := fun h => hN (BitVec.eq_of_toNat_eq ((toNat_and_000F w).trans h))
  obtain ⟨noOperation, -⟩ := decodeErrorWordsExactly w
  exact noOperation.2 (.inl ⟨tag, hN⟩)

end

/-! #### The skip (R140) -/

theorem onlyPc_skipIf (s : State) (c : Bool) : OnlyPc s (s.skipIf c) := by
  cases c with
  | false => exact onlyPc_setPc s s.pc
  | true => exact onlyPc_setPc s _

/-- An instruction that answers `skipIf c` moves pc past the next one where `c` holds and leaves it where it does not. -/
theorem skips_of_exec {i : Instr} {s : State} {c : Bool} {skip stay : Prop} (h : exec i s = .next (s.skipIf c))
    (hskip : skip → c = true) (hstay : stay → c = false) :
    ∃ t, exec i s = .next t ∧ (skip → t.pc = s.pc + 2#16) ∧ (stay → t.pc = s.pc) ∧ OnlyPc s t := by
  refine ⟨_, h, fun hp => ?_, fun hp => ?_, onlyPc_skipIf s c⟩
  · rw [State.skipIf_pc, if_pos (hskip hp)]
  · rw [State.skipIf_pc, hstay hp, if_neg Bool.false_ne_true]

/-! #### The key skips, case by case (R147) -/

section
variable {x : RegIx} {s : State}

theorem skipOnKey_of_key {k : RegIx} (h : (s.reg x).toNat = k.val) (i : Instr) (down : Bool) :
    skipOnKey i x down s = .next (s.skipIf (s.keyDown k == down)) := by
  have hk : keyIndex (s.reg x) = some k := (dif_pos (h ▸ k.isLt)).trans (congrArg some (Fin.ext h))
  rw [skipOnKey, hk]

theorem skipOnKey_of_ge (h : 16 ≤ (s.reg x).toNat) (i : Instr) (down : Bool) :
    skipOnKey i x down s = raiseFault .keyIndexOutOfRange i (some (s.reg x).toNat) s := by
  have hk : keyIndex (s.reg x) = none := dif_neg (Nat.not_lt.2 h)
  rw [skipOnKey, hk]

end

/-! #### The obligations -/

/-- Settles O13: VX names a key, and the condition compares its state with the wanted one, or it names none and is a fault. -/
theorem keySkips : Obligations.KeySkips := by
  refine ⟨fun w hw => ?_, fun w hw => ?_, fun x s k h => ⟨?_, ?_⟩, fun x s h => ⟨?_, ?_⟩⟩
  · exact decodeWord_of_encode (wordXNN_operands_of_mask_F0FF hw) rfl
  · exact decodeWord_of_encode (wordXNN_operands_of_mask_F0FF hw) rfl
  · exact skips_of_exec (skipOnKey_of_key h (.skp x) true) beq_iff_eq.2 (congrArg (· == true))
  · exact skips_of_exec (skipOnKey_of_key h (.sknp x) false) beq_iff_eq.2 (congrArg (· == false))
  · exact faults_of_raiseFault (skipOnKey_of_ge h (.skp x) true) (encode_skp x)
  · exact faults_of_raiseFault (skipOnKey_of_ge h (.sknp x) false) (encode_sknp x)

/-- Settles O11: the conditions are VX = NN and its negation, as the tests `==` and `!=` of the same two bytes. -/
theorem immediateSkips : Obligations.ImmediateSkips := by
  refine ⟨fun w hw => ?_, fun w hw => ?_, fun x nn s => ⟨?_, ?_⟩⟩
  · exact decodeWord_of_encode (wordXNN_operands hw) rfl
  · exact decodeWord_of_encode (wordXNN_operands hw) rfl
  · exact skips_of_exec rfl beq_iff_eq.2 beq_eq_false_iff_ne.2
  · exact skips_of_exec rfl bne_iff_ne.2 bne_eq_false_iff_eq.2

/-- Settles O12: the conditions are those of O11 with VY for NN, and a word with N not 0 is outside the opcode map. -/
theorem registerSkips : Obligations.RegisterSkips := by
  refine ⟨fun w hw => ?_, fun w hw => ?_, fun w => decodeWord_of_lowNibble_ne_zero, fun x y s => ⟨?_, ?_⟩⟩
  · exact decodeWord_of_encode (wordXYN_operands_of_mask_F00F hw) rfl
  · exact decodeWord_of_encode (wordXYN_operands_of_mask_F00F hw) rfl
  · exact skips_of_exec rfl beq_iff_eq.2 beq_eq_false_iff_ne.2
  · exact skips_of_exec rfl bne_iff_ne.2 bne_eq_false_iff_eq.2

end Sys2Proof.Machine

/-! ### Registers and arithmetic

Each instruction is one write of VX, or a write of VX and one of VF in the order of R170 (43_register_alu.md). The frame, the
two orders of writes and the values of results and flags as numbers are said once, for all of them. -/

namespace Sys2Proof.Machine

/-! #### The frame of register writes -/

section
variable {xs : List RegIx} {s t : State} {x : RegIx}

theorem SameRegsBut.setReg (h : SameRegsBut xs s t) (hx : x ∈ xs) (b : Byte) : SameRegsBut xs s (t.setReg x b) :=
  fun r hr => by rw [State.reg_setReg_of_ne t b (ne_of_mem_of_not_mem hx hr).symm, h r hr]

theorem OnlyRegs.refl (xs : List RegIx) (s : State) : OnlyRegs xs s s :=
  ⟨fun _ _ => rfl, rfl, rfl, fun _ => rfl, ⟨rfl, rfl⟩, ⟨rfl, rfl⟩, ⟨rfl, rfl⟩, fun _ => rfl, rfl⟩

theorem OnlyRegs.setReg (h : OnlyRegs xs s t) (hx : x ∈ xs) (b : Byte) : OnlyRegs xs s (t.setReg x b) := by
  obtain ⟨hregs, hrest⟩ := h
  exact ⟨hregs.setReg hx b, hrest⟩

theorem onlyRegs_setReg (s : State) (x : RegIx) (b : Byte) : OnlyRegs [x] s (s.setReg x b) :=
  (OnlyRegs.refl [x] s).setReg List.mem_cons_self b

end

/-! #### The two orders of writes (R170) -/

section
variable {i : Instr} {s : State} {x : RegIx} {result flag : Byte}

/-- VX and then VF: the flag is in VF whatever X is, and the result in VX unless X = F. -/
theorem resultThenFlag_of_exec (h : exec i s = .next ((s.setReg x result).setVf flag)) :
    ∃ t, exec i s = .next t ∧ (x ≠ vf → t.reg x = result) ∧ t.reg vf = flag ∧ OnlyRegs [x, vf] s t := by
  refine ⟨_, h, fun hx => ?_, State.reg_setReg_self _ vf flag, ?_⟩
  · rw [State.setVf_eq, State.reg_setReg_of_ne _ flag hx, State.reg_setReg_self]
  · exact ((OnlyRegs.refl [x, vf] s).setReg (by simp) result).setReg (by simp) flag

/-- VF and then VX: the result is in VX whatever X is, and the flag in VF unless X = F. -/
theorem flagThenResult_of_exec (h : exec i s = .next ((s.setVf flag).setReg x result)) :
    ∃ t, exec i s = .next t ∧ t.reg x = result ∧ (x ≠ vf → t.reg vf = flag) ∧ OnlyRegs [x, vf] s t := by
  refine ⟨_, h, State.reg_setReg_self _ x result, fun hx => ?_, ?_⟩
  · rw [State.reg_setReg_of_ne _ result hx.symm, State.setVf_eq, State.reg_setReg_self]
  · exact ((OnlyRegs.refl [x, vf] s).setReg (by simp) flag).setReg (by simp) result

end

/-! #### Results and flags as numbers (R160, R168 to R173) -/

section
variable (a b : Byte)

/-- The difference modulo 256 in the form of R160, which adds 256 before it subtracts. -/
theorem byte_sub_toNat : (a - b).toNat = (a.toNat + 256 - b.toNat) % 256 := by
  have hb := b.isLt
  rw [BitVec.toNat_sub]
  omega

theorem byte_shiftRight_one_toNat : (a >>> 1).toNat = a.toNat / 2 := by
  rw [BitVec.toNat_ushiftRight, Nat.shiftRight_eq_div_pow, pow_one]

theorem byte_shiftLeft_one_toNat : (a <<< 1).toNat = 2 * a.toNat % 256 := by
  rw [BitVec.toNat_shiftLeft, Nat.shiftLeft_eq, pow_one, Nat.mul_comm]

theorem carryFlag_eq_ite : carryFlag a b = if 255 < a.toNat + b.toNat then 1#8 else 0#8 := by
  simp only [carryFlag, flagByte, decide_eq_true_eq]

/-- The carry is the ninth bit of the sum. -/
theorem carryFlag_toNat : (carryFlag a b).toNat = (a.toNat + b.toNat) / 256 := by
  have ha := a.isLt
  have hb := b.isLt
  rw [carryFlag_eq_ite]
  split
  · change 1 = _
    omega
  · change 0 = _
    omega

/-- One minus the borrow, which is a carry of `b + 255 - a`. -/
theorem noBorrowFlag_toNat : (noBorrowFlag a b).toNat = 1 - (b.toNat + 255 - a.toNat) / 256 := by
  rw [noBorrowFlag]
  split
  · change 0 = _
    omega
  · change 1 = _
    omega

theorem shrFlag_toNat : (shrFlag a).toNat = a.toNat % 2 :=
  (BitVec.toNat_and a 1#8).trans (Nat.and_one_is_mod a.toNat)

theorem shlFlag_toNat : (shlFlag a).toNat = a.toNat / 128 := by
  have ha := a.isLt
  calc (shlFlag a).toNat
      = (a.toNat >>> 7) &&& 1 := by
        rw [shlFlag, BitVec.toNat_ushiftRight, BitVec.toNat_and, Nat.shiftRight_and_distrib]
        rfl
    _ = a.toNat / 128 % 2 := by rw [Nat.and_one_is_mod, Nat.shiftRight_eq_div_pow]
    _ = a.toNat / 128 := by omega

end

/-! #### The obligations -/

/-- Settles O18: VX and then VF, the sum and the carry. -/
theorem addRegisterSetsCarry : Obligations.AddRegisterSetsCarry := by
  refine ⟨fun w hw => decodeWord_of_encode (wordXYN_operands_of_mask_F00F hw) rfl, fun x y s => ?_⟩
  obtain ⟨t, ht, hx, hvf, honly⟩ := resultThenFlag_of_exec (i := .addReg x y) (s := s) rfl
  exact ⟨t, ht, fun hne => by rw [hx hne, BitVec.toNat_add], by rw [hvf, carryFlag_eq_ite], honly⟩

/-- Settles O19: VX and then VF, the difference and the borrow's negation. -/
theorem subSetsNoBorrow : Obligations.SubSetsNoBorrow := by
  refine ⟨fun w hw => decodeWord_of_encode (wordXYN_operands_of_mask_F00F hw) rfl, fun x y s => ?_⟩
  obtain ⟨t, ht, hx, hvf, honly⟩ := resultThenFlag_of_exec (i := .sub x y) (s := s) rfl
  exact ⟨t, ht, fun hne => by rw [hx hne, byte_sub_toNat], hvf, honly⟩

/-- Settles O20: VX and then VF, as SUB with its operands exchanged. -/
theorem subnSetsNoBorrow : Obligations.SubnSetsNoBorrow := by
  refine ⟨fun w hw => decodeWord_of_encode (wordXYN_operands_of_mask_F00F hw) rfl, fun x y s => ?_⟩
  obtain ⟨t, ht, hx, hvf, honly⟩ := resultThenFlag_of_exec (i := .subn x y) (s := s) rfl
  exact ⟨t, ht, fun hne => by rw [hx hne, byte_sub_toNat], hvf, honly⟩

/-- Settles O21: VF and then VX, the bit shifted out and the half. -/
theorem shrShiftsInPlace : Obligations.ShrShiftsInPlace := by
  refine ⟨fun w hw => decodeWord_of_encode (wordXYN_operands_of_mask_F00F hw) rfl, fun x y s => ?_⟩
  obtain ⟨t, ht, hx, hvf, honly⟩ := flagThenResult_of_exec (i := .shr x y) (s := s) rfl
  exact ⟨t, ht, by rw [hx, byte_shiftRight_one_toNat], fun hne => by rw [hvf hne, shrFlag_toNat], honly⟩

/-- Settles O22: VF and then VX, the bit shifted out and the double. -/
theorem shlShiftsInPlace : Obligations.ShlShiftsInPlace := by
  refine ⟨fun w hw => decodeWord_of_encode (wordXYN_operands_of_mask_F00F hw) rfl, fun x y s => ?_⟩
  obtain ⟨t, ht, hx, hvf, honly⟩ := flagThenResult_of_exec (i := .shl x y) (s := s) rfl
  exact ⟨t, ht, by rw [hx, byte_shiftLeft_one_toNat], fun hne => by rw [hvf hne, shlFlag_toNat], honly⟩

/-- Settles O23: with X = F the write that comes last stays, the flag for three of the five and the result for the shifts. -/
theorem finalVfOfFlagInstructions : Obligations.FinalVfOfFlagInstructions := by
  intro y s
  obtain ⟨t4, h4, -, carry, -⟩ := resultThenFlag_of_exec (i := .addReg vf y) (s := s) rfl
  obtain ⟨t5, h5, -, noBorrow, -⟩ := resultThenFlag_of_exec (i := .sub vf y) (s := s) rfl
  obtain ⟨t7, h7, -, noBorrow', -⟩ := resultThenFlag_of_exec (i := .subn vf y) (s := s) rfl
  obtain ⟨t6, h6, half, -⟩ := flagThenResult_of_exec (i := .shr vf y) (s := s) rfl
  obtain ⟨tE, hE, double, -⟩ := flagThenResult_of_exec (i := .shl vf y) (s := s) rfl
  refine ⟨t4, t5, t7, t6, tE, h4, h5, h7, h6, hE, ?_, ?_, ?_, ?_, ?_⟩
  · rw [carry, carryFlag_toNat]
  · rw [noBorrow, noBorrowFlag_toNat]
  · rw [noBorrow', noBorrowFlag_toNat]
  · rw [half, byte_shiftRight_one_toNat]
  · rw [double, byte_shiftLeft_one_toNat]

/-- Settles O14: one write of VX, the immediate. -/
theorem ldImmediate : Obligations.LdImmediate :=
  ⟨fun _ hw => decodeWord_of_encode (wordXNN_operands hw) rfl,
    fun x nn s => ⟨_, rfl, s.reg_setReg_self x nn, onlyRegs_setReg s x _⟩⟩

/-- Settles O15: one write of VX, a sum of bytes. -/
theorem addImmediateWraps : Obligations.AddImmediateWraps := by
  refine ⟨fun w hw => decodeWord_of_encode (wordXNN_operands hw) rfl,
    fun x nn s => ⟨_, rfl, ?_, onlyRegs_setReg s x _⟩⟩
  rw [State.reg_setReg_self, BitVec.toNat_add]

/-- Settles O16: one write of VX, the old VY. -/
theorem ldRegister : Obligations.LdRegister :=
  ⟨fun _ hw => decodeWord_of_encode (wordXYN_operands_of_mask_F00F hw) rfl,
    fun x y s => ⟨_, rfl, s.reg_setReg_self x (s.reg y), onlyRegs_setReg s x _⟩⟩

/-- Settles O17: one write of VX each, whose bits are those of the bitwise operation on the two bytes. -/
theorem logicWritesOnlyVx : Obligations.LogicWritesOnlyVx := by
  refine ⟨fun w hw => ?_, fun w hw => ?_, fun w hw => ?_, fun x y s =>
    ⟨⟨_, rfl, onlyRegs_setReg s x _, fun k => ?_⟩, ⟨_, rfl, onlyRegs_setReg s x _, fun k => ?_⟩,
      ⟨_, rfl, onlyRegs_setReg s x _, fun k => ?_⟩⟩⟩
  · exact decodeWord_of_encode (wordXYN_operands_of_mask_F00F hw) rfl
  · exact decodeWord_of_encode (wordXYN_operands_of_mask_F00F hw) rfl
  · exact decodeWord_of_encode (wordXYN_operands_of_mask_F00F hw) rfl
  · rw [State.reg_setReg_self, BitVec.getLsbD_or]
  · rw [State.reg_setReg_self, BitVec.getLsbD_and]
  · rw [State.reg_setReg_self, BitVec.getLsbD_xor]

/-- Settles O24: one write of VX, whose bits are those of the draw and of NN; taking the draw moves only the counter. -/
theorem rndMasksFreshDraw : Obligations.RndMasksFreshDraw := by
  refine ⟨fun w hw => decodeWord_of_encode (wordXNN_operands hw) rfl, fun x nn s => ?_⟩
  obtain ⟨hregs, hi, hpc, hmem, hstack, htimers, hinputs, hfb, -⟩ :=
    onlyRegs_setReg s.draw8.2 x (s.draw8.1 &&& nn)
  refine ⟨_, rfl, fun k => ?_, hregs, hi, hpc, hmem, hstack, htimers, hinputs, hfb⟩
  rw [State.reg_setReg_self, BitVec.getLsbD_and, State.draw8_fst]

end Sys2Proof.Machine

/-! ### The index register and memory

I is set by three instructions, which change nothing else; the three that touch memory make one range check, and the bytes
they store or load form one block (44_index_memory.md). -/

namespace Sys2Proof.Machine

/-! #### The index register (R190 to R192, R195) -/

theorem onlyI_setI (s : State) (a : Word) : OnlyI s (s.setI a) :=
  ⟨fun _ _ => rfl, rfl, fun _ => rfl, ⟨rfl, rfl⟩, ⟨rfl, rfl⟩, ⟨rfl, rfl⟩, fun _ => rfl, rfl⟩

section
variable (s : State)

theorem State.reg16_toNat (x : RegIx) : (s.reg16 x).toNat = (s.reg x).toNat :=
  BitVec.toNat_setWidth_of_le (by decide)

/-- Five times a byte does not wrap (R192). -/
theorem State.glyphAddr_toNat (x : RegIx) : (s.glyphAddr x).toNat = (s.reg x).toNat * 5 := by
  have hreg := (s.reg x).isLt
  rw [glyphAddr, BitVec.toNat_mul, reg16_toNat, BitVec.toNat_ofNat]
  omega

/-- The advance past V0..VX wraps modulo 2^16 (R195 to R197). -/
theorem State.advanceI_past_toNat (x : RegIx) :
    (s.advanceI (BitVec.ofNat 16 (x.val + 1))).i.toNat = (s.i.toNat + x.val + 1) % 65536 := by
  rw [advanceI_i, BitVec.toNat_add, BitVec.toNat_ofNat, Nat.add_mod_mod, Nat.add_assoc]

end

/-! #### Blocks stored and loaded (R193, R194, R196, R197) -/

/-- An instruction whose last address is past memory faults with that address (R194, R231). -/
theorem faults_of_withRange {i : Instr} {base k : Nat} {s t : State} {w : Word}
    (h : exec i s = withRange i base (k + 1) s t) (hw : encode i = w) (hlast : 4096 ≤ base + k) :
    Faults i s .memoryOutOfRange w (some (base + k)) :=
  faults_of_raiseFault (h.trans (withRange_past_memory (Nat.succ_pos k) hlast i s t)) hw

theorem sameMemOutside_setMem_writeBlock (s : State) (base : Nat) {bs : List Byte} {n : Nat} (hn : bs.length = n) :
    SameMemOutside base n s (s.setMem (writeBlock s.mem base bs)) :=
  fun a ha => read_writeBlock_of_not_mem s.mem base bs a (hn ▸ ha)

theorem SameRest.refl (s : State) : SameRest s s :=
  ⟨⟨rfl, rfl⟩, ⟨rfl, rfl⟩, ⟨rfl, rfl⟩, fun _ => rfl, rfl⟩

theorem OnlyRegs.loadRegs {xs rs : List RegIx} {s t : State} (h : OnlyRegs xs s t) (hrs : ∀ r ∈ rs, r ∈ xs)
    (base : Nat) : OnlyRegs xs s (t.loadRegs base rs) := by
  induction rs generalizing t with
  | nil => exact h
  | cons r rs ih =>
    obtain ⟨hr, hrs⟩ := List.forall_mem_cons.1 hrs
    exact ih (h.setReg hr _) hrs

section
variable {x : RegIx} {s : State} (h : s.i.toNat + x.val < 4096)
include h

/-- FX65 in range loads V0..VX from one block and advances I (R197). -/
theorem exec_ldVxMi_of_lt : exec (.ldVxMi x) s =
    .next ((s.loadRegs s.i.toNat (regsUpTo x)).advanceI (BitVec.ofNat 16 (x.val + 1))) :=
  withRange_of_le h _ _ _

/-- The byte FX55 stores at I + k is V[k] (R196). -/
theorem State.read_writeBlock_regBytes {k : RegIx} (hk : k ≤ x) :
    (writeBlock s.mem s.i.toNat (s.regBytes x)).read (s.i.toNat + k.val) = s.reg k := by
  have hk : k.val ≤ x.val := hk
  have hlen : (s.regBytes x).length = x.val + 1 := s.regBytes_length x
  rw [read_writeBlock s.mem _ _ (by omega) k.val (by omega), regBytes_getElem]

end

/-! #### The obligations -/

/-- Settles O29: in range the digits are one stored block of three bytes, and past memory FX33 is a fault. -/
theorem ldBcdStoresDigits : Obligations.LdBcdStoresDigits := by
  refine ⟨fun w hw => decodeWord_of_encode (wordXNN_operands_of_mask_F0FF hw) rfl, fun x s h => ?_, fun x s h => ?_⟩
  · obtain ⟨hundreds, tens, ones, hd, hh, ht, ho⟩ := bcdDigits_eq (s.reg x)
    have digit := read_writeBlock s.mem s.i.toNat [hundreds, tens, ones] h
    have stores := exec_ldBVx_of_lt (x := x) h
    rw [hd] at stores
    refine ⟨_, stores, ?_, ?_, ?_, sameMemOutside_setMem_writeBlock s _ rfl, fun _ _ => rfl, rfl, rfl, SameRest.refl s⟩
    · exact (congrArg BitVec.toNat (digit 0 (by simp))).trans hh
    · exact (congrArg BitVec.toNat (digit 1 (by simp))).trans ht
    · exact (congrArg BitVec.toNat (digit 2 (by simp))).trans ho
  · exact faults_of_withRange rfl (encode_ldBVx x) h

/-- Settles O30: in range the registers are one stored block, and past memory FX55 is a fault. -/
theorem storeRegisters : Obligations.StoreRegisters := by
  refine ⟨fun w hw => decodeWord_of_encode (wordXNN_operands_of_mask_F0FF hw) rfl, fun x s h => ?_, fun x s h => ?_⟩
  · exact ⟨_, exec_ldMiVx_of_lt h, fun k hk => State.read_writeBlock_regBytes h hk,
      sameMemOutside_setMem_writeBlock s _ (s.regBytes_length x), State.advanceI_past_toNat _ x, fun _ _ => rfl, rfl,
      SameRest.refl s⟩
  · exact faults_of_withRange rfl (encode_ldMiVx x) h

/-- Settles O31: in range the registers up to X, and no other, take the bytes of one block; past memory FX65 is a fault. -/
theorem loadRegisters : Obligations.LoadRegisters := by
  refine ⟨fun w hw => decodeWord_of_encode (wordXNN_operands_of_mask_F0FF hw) rfl, fun x s h => ?_, fun x s h => ?_⟩
  · obtain ⟨hregs, hi, hpc, hmem, hrest⟩ :=
      (OnlyRegs.refl (regsUpTo x) s).loadRegs (fun _ hr => hr) s.i.toNat
    refine ⟨_, exec_ldVxMi_of_lt h, fun k hk => ?_, fun k hk => ?_, ?_, hpc, hmem, hrest⟩
    · rw [State.reg_advanceI, State.reg_loadRegs, if_pos ((mem_regsUpTo x k).2 hk)]
    · exact hregs k (mt (mem_regsUpTo x k).1 hk.not_ge)
    · rw [State.advanceI_past_toNat, hi]
  · exact faults_of_withRange rfl (encode_ldVxMi x) h

/-- Settles O32: the bytes FX65 loads are those FX55 has stored, and both advance I from the same address. -/
theorem storeLoadRoundTrip : Obligations.StoreLoadRoundTrip := by
  intro x s t u h ht hmem hi
  obtain ⟨-, store, -⟩ := storeRegisters
  obtain ⟨-, load, -⟩ := loadRegisters
  obtain ⟨t', ht', stored, -, hti, -⟩ := store x s h
  obtain rfl : t' = t := Host.Outcome.next.inj (ht'.symm.trans ht)
  obtain ⟨v, hv, loaded, -, hvi, -, hvmem, -⟩ := load x u (hi ▸ h)
  refine ⟨v, hv, BitVec.eq_of_toNat_eq ?_, fun a => ?_, fun k hk => ?_⟩
  · rw [hvi, hti, hi]
  · rw [hvmem a, hmem]
  · rw [loaded k hk, hmem, hi, stored k hk]

/-- Settles O26: LD I is one write of I. -/
theorem ldIndex : Obligations.LdIndex :=
  ⟨fun _ hw => decodeWord_of_encode (wordNNN_lowAddr hw) rfl,
    fun nnn s => ⟨_, rfl, addrOf_toNat nnn, onlyI_setI s _⟩⟩

/-- Settles O27: ADD I is one write of I, a sum of 16-bit values. -/
theorem addIndexWraps : Obligations.AddIndexWraps := by
  refine ⟨fun w hw => decodeWord_of_encode (wordXNN_operands_of_mask_F0FF hw) rfl,
    fun x s => ⟨_, rfl, ?_, onlyI_setI s _⟩⟩
  rw [State.advanceI_i, BitVec.toNat_add, State.reg16_toNat]

/-- Settles O28: LD F is one write of I, the glyph address. -/
theorem ldFontAddress : Obligations.LdFontAddress :=
  ⟨fun _ hw => decodeWord_of_encode (wordXNN_operands_of_mask_F0FF hw) rfl,
    fun x s => ⟨_, rfl, s.glyphAddr_toNat x, onlyI_setI s _⟩⟩

end Sys2Proof.Machine

/-! ### Timers and the keypad

FX07 and FX0A write VX alone, unless FX0A finds no key and goes back to its own address; FX15 and FX18 write one timer alone
(45_timers_keypad.md). -/

namespace Sys2Proof.Machine

/-! #### The key wait, case by case (R211, R212) -/

section
variable {s : State}

/-- The highest pressed key is the only answer the scan can give (R211). -/
theorem State.highestKey_eq_some {k : RegIx} (hdown : s.keyDown k = true) (hmax : ∀ j, s.keyDown j = true → j ≤ k) :
    s.highestKey = some k := by
  rcases s.highestKey_cases with ⟨-, hno⟩ | ⟨m, hm, hmdown, hmmax⟩
  · exact absurd hdown (Bool.eq_false_iff.1 (hno k))
  · rw [hm, le_antisymm (hmax m hmdown) (hmmax k hdown)]

theorem State.highestKey_eq_none (hno : ∀ k, s.keyDown k = false) : s.highestKey = none := by
  rcases s.highestKey_cases with ⟨hnone, -⟩ | ⟨m, -, hmdown, -⟩
  · exact hnone
  · exact absurd hmdown (Bool.eq_false_iff.1 (hno m))

variable (x : RegIx)

theorem exec_ldVxK_of_some {k : RegIx} (h : s.highestKey = some k) :
    exec (.ldVxK x) s = .next (s.setReg x (BitVec.ofNat 8 k.val)) := by
  simp only [exec, execLdVxK, h]

theorem exec_ldVxK_of_none (h : s.highestKey = none) : exec (.ldVxK x) s = .next (s.setPc (s.pc - 2#16)) := by
  simp only [exec, execLdVxK, h]

end

/-- A key index fits in a byte. -/
theorem keyByte_toNat (k : RegIx) : (BitVec.ofNat 8 k.val).toNat = k.val := by
  have hk := k.isLt
  rw [BitVec.toNat_ofNat, Nat.mod_eq_of_lt (by omega)]

/-! #### The timers (R213, R214) -/

/-- The frame of FX15 and FX18: everything but the two timers is unchanged. -/
def OnlyTimers (s t : State) : Prop :=
  SameRegsBut [] s t ∧ t.i = s.i ∧ t.pc = s.pc ∧ SameMem s t ∧ SameStack s t ∧ SameInputs s t ∧ SameFb s t ∧
    t.draws = s.draws

theorem onlyTimers_setDt (s : State) (b : Byte) : OnlyTimers s (s.setDt b) :=
  ⟨fun _ _ => rfl, rfl, rfl, fun _ => rfl, ⟨rfl, rfl⟩, ⟨rfl, rfl⟩, fun _ => rfl, rfl⟩

theorem onlyTimers_setSt (s : State) (b : Byte) : OnlyTimers s (s.setSt b) :=
  ⟨fun _ _ => rfl, rfl, rfl, fun _ => rfl, ⟨rfl, rfl⟩, ⟨rfl, rfl⟩, fun _ => rfl, rfl⟩

theorem soundOn_iff (s : State) : soundOn s = true ↔ s.st ≠ 0#8 :=
  bne_iff_ne

/-! #### The obligations -/

/-- Settles O35: the scan has found the highest key or none, and FX0A answers each by its own equation. -/
theorem waitForKey : Obligations.WaitForKey := by
  refine ⟨fun w hw => ?_, fun x s k hdown hmax => ?_, fun x s hno => ?_⟩
  · exact decodeWord_of_encode (wordXNN_operands_of_mask_F0FF hw) rfl
  · refine ⟨_, exec_ldVxK_of_some x (State.highestKey_eq_some hdown hmax), ?_, onlyRegs_setReg s x _⟩
    rw [State.reg_setReg_self, keyByte_toNat]
  · exact exec_ldVxK_of_none x (State.highestKey_eq_none hno)

/-- Settles O34: one write of VX, the delay timer. -/
theorem readDelayTimer : Obligations.ReadDelayTimer :=
  ⟨fun _ hw => decodeWord_of_encode (wordXNN_operands_of_mask_F0FF hw) rfl,
    fun x s => ⟨_, rfl, s.reg_setReg_self x s.dt, onlyRegs_setReg s x _⟩⟩

/-- Settles O36: one write of a timer each, and the sound follows the one of ST. -/
theorem setTimers : Obligations.SetTimers := by
  refine ⟨fun w hw => ?_, fun w hw => ?_, fun x s => ⟨?_, ?_⟩⟩
  · exact decodeWord_of_encode (wordXNN_operands_of_mask_F0FF hw) rfl
  · exact decodeWord_of_encode (wordXNN_operands_of_mask_F0FF hw) rfl
  · exact ⟨_, rfl, rfl, rfl, onlyTimers_setDt s (s.reg x)⟩
  · exact ⟨_, rfl, rfl, rfl, soundOn_iff (s.setSt (s.reg x)), onlyTimers_setSt s (s.reg x)⟩

end Sys2Proof.Machine

/-! ### Faults, the condition of a run, key_in and timer_tick

Faults in execution are read off from `exec_next_cases` and faults of a cycle from `step_cases`; an idle core is one
whose cycle is the jump to its own pc (60_exceptions.md). -/

namespace Sys2Proof.Machine

/-! #### Cycles of a halted and of an unhalted core (R235) -/

theorem step_of_halted {s : State} {f : FaultRecord} (h : s.fault = some f) : step s = .fault (.halted f) := by
  simp only [step, cycleBy, h]

/-- Both answers of an instruction in execution are next states: a fault's is the halted state it enters (R234). -/
theorem exec_exists_next (i : Instr) (s : State) : ∃ t, exec i s = .next t := by
  have ha := exec_answers i s
  generalize exec i s = r at ha
  cases ha with
  | fault => exact ⟨_, rfl⟩
  | next => exact ⟨_, rfl⟩

theorem step_exists_next {s : State} (hs : s.fault = none) : ∃ t, step s = .next t := by
  rcases step_cases s with ⟨f, hf, -⟩ | ⟨-, a, -, he⟩ | ⟨-, w, e, -, -, he⟩ | ⟨-, w, i, -, -, he⟩
  · exact absurd (hs.symm.trans hf) nofun
  · exact ⟨_, he⟩
  · exact ⟨_, he⟩
  · exact he ▸ exec_exists_next i s.advance

theorem fault_eq_none_of_step_next {s t : State} (h : step s = .next t) : s.fault = none := by
  cases hf : s.fault with
  | none => rfl
  | some f => exact absurd ((step_of_halted hf).symm.trans h) nofun

/-! #### The self-jump of an idle core (R251) -/

/-- Below 4096, setting the bit of tag 1 on an address adds 0x1000. -/
theorem selfJump_toNat {a : Word} (h : a.toNat < 4096) : (0x1000#16 ||| a).toNat = 0x1000 + a.toNat :=
  (BitVec.toNat_or _ _).trans (Nat.two_pow_add_eq_or_of_lt (i := 12) h 1).symm

/-- The word of R251 as a number; a fetch that answers a word has pc below 4096. -/
theorem State.atSelfJump_iff (s : State) :
    s.atSelfJump = true ↔ ∃ w, fetch s = .ok w ∧ w.toNat = 0x1000 + s.pc.toNat := by
  unfold atSelfJump
  cases hw : fetch s with
  | error a => exact iff_of_false Bool.false_ne_true nofun
  | ok w =>
    have hpc : s.pc.toNat < 4096 := Nat.lt_of_succ_lt (fetch_ok_pc_lt hw)
    simp only [Bool.and_eq_true, beq_iff_eq, decide_eq_true_eq, hpc, and_true, Except.ok.injEq, exists_eq_left']
    rw [← BitVec.toNat_inj, selfJump_toNat hpc]

section
variable {s : State} {w : Word} (hw : w.toNat = 0x1000 + s.pc.toNat) (hpc : s.pc.toNat < 4096)
include hw hpc

/-- The word is the encoding of a JP whose NNN is pc. -/
theorem decodeWord_of_selfJump : ∃ nnn, decodeWord w = .ok (.jp nnn) ∧ addrOf nnn = s.pc := by
  have hnnn : (s.pc.setWidth 12).toNat = s.pc.toNat := by
    rw [BitVec.toNat_setWidth, Nat.mod_eq_of_lt hpc]
  have encodes : encode (.jp (s.pc.setWidth 12)) = w := by
    apply BitVec.eq_of_toNat_eq
    rw [encode, wordNNN_toNat, hnnn, hw]
    rfl
  refine ⟨_, decodeWord_of_encode encodes rfl, BitVec.eq_of_toNat_eq ?_⟩
  rw [addrOf_toNat, hnnn]

/-- The jump undoes the fetch's advance, the cycle's only other write. -/
theorem step_of_selfJump (hs : s.fault = none) (hf : fetch s = .ok w) : step s = .next s := by
  obtain ⟨nnn, hd, haddr⟩ := decodeWord_of_selfJump hw hpc
  calc step s = .next (s.advance.setPc (addrOf nnn)) := step_of_decode_ok hs hf hd
    _ = .next s := by rw [haddr]; rfl

end

/-! #### The condition of a run (R251) -/

theorem State.condition_eq_faulted_iff (s : State) : s.condition = .faulted ↔ s.fault ≠ none := by
  unfold condition
  cases s.fault with
  | some f => exact iff_of_true rfl nofun
  | none => cases s.atSelfJump <;> simp

theorem State.condition_eq_idle_iff (s : State) : s.condition = .idle ↔
    s.fault = none ∧ ∃ w, fetch s = .ok w ∧ w.toNat = 0x1000 + s.pc.toNat := by
  rw [← atSelfJump_iff]
  unfold condition
  cases s.fault with
  | some f => exact iff_of_false nofun nofun
  | none => cases s.atSelfJump <;> simp

theorem RunCondition.eq_running_iff (c : RunCondition) : c = .running ↔ c ≠ .faulted ∧ c ≠ .idle := by
  cases c <;> decide

/-! #### The obligations -/

/-- Settles O48: both answers of an instruction are next states, and a cycle is none only from a halted core. -/
theorem unhaltedCoreAlwaysSteps : Obligations.UnhaltedCoreAlwaysSteps :=
  ⟨exec_exists_next, fun _ => ⟨step_exists_next, fun ⟨_, ht⟩ => fault_eq_none_of_step_next ht⟩⟩

/-- Settles O49: the cycle is no move, and key_in and timer_tick do not write the fault. -/
theorem haltedCoreHasNoCycle : Obligations.HaltedCoreHasNoCycle := by
  intro s f hf
  have no_cycle : move .cycle s = none := by simp only [move, step_of_halted hf]
  refine ⟨step_of_halted hf, no_cycle, fun m t hm hload hreset => ?_⟩
  cases m with
  | cycle => exact absurd (no_cycle.symm.trans hm) nofun
  | load font image => exact absurd rfl (hload font image)
  | reset => exact absurd rfl hreset
  | keyIn k16 =>
    obtain rfl := Option.some.inj hm
    exact hf
  | timerTick =>
    obtain rfl := Option.some.inj hm
    exact hf

/-- Settles O50: of the next states of a cycle two have a fault, and each is the state its stage was given with a record
latched. -/
theorem faultsArePrecise : Obligations.FaultsArePrecise := by
  intro s t hst ht
  rcases step_cases s with ⟨f, -, he⟩ | ⟨-, a, ha, he⟩ | ⟨hs, w, e, -, -, he⟩ | ⟨hs, w, i, hw, -, he⟩
  · exact absurd (he.symm.trans hst) nofun
  · obtain rfl := Host.Outcome.next.inj (he.symm.trans hst)
    exact ⟨fun w hw => absurd (ha.symm.trans hw) nofun, fun _ _ => rfl⟩
  · obtain rfl := Host.Outcome.next.inj (he.symm.trans hst)
    exact absurd hs ht
  · rcases exec_next_cases (he.symm.trans hst) with ⟨_, _, -, rfl⟩ | heff
    · exact ⟨fun _ _ => rfl, fun a ha => absurd (hw.symm.trans ha) nofun⟩
    · exact absurd (heff.fault.trans hs) ht

/-- Settles O51: only a latched fault changes the field, and the rows are the constructors of `Raises`. -/
theorem faultCauseTable : Obligations.FaultCauseTable := by
  intro i s t hst hne
  rcases exec_next_cases hst with ⟨cause, info, hr, rfl⟩ | he
  · refine ⟨_, rfl, ?_⟩
    cases hr with
    | ret h => exact .inl ⟨rfl, h, rfl, rfl⟩
    | call nnn h => exact .inr (.inl ⟨nnn, rfl, h, rfl, rfl⟩)
    | drw x y n hn h => exact .inr (.inr (.inl ⟨x, y, n, rfl, rfl, rfl, by omega⟩))
    | ldBVx x h => exact .inr (.inr (.inr (.inl ⟨x, rfl, rfl, rfl, h⟩)))
    | ldMiVx x h => exact .inr (.inr (.inr (.inr (.inl ⟨x, .inl rfl, rfl, rfl, h⟩))))
    | ldVxMi x h => exact .inr (.inr (.inr (.inr (.inl ⟨x, .inr rfl, rfl, rfl, h⟩))))
    | skp x h => exact .inr (.inr (.inr (.inr (.inr ⟨x, .inl rfl, rfl, rfl, h⟩))))
    | sknp x h => exact .inr (.inr (.inr (.inr (.inr ⟨x, .inr rfl, rfl, rfl, h⟩))))
  · exact absurd he.fault hne

/-- Settles O60: the conditions by their defining tests, and the cycle of an idle core is the jump to its own pc. -/
theorem idleStateIsStable : Obligations.IdleStateIsStable := by
  refine fun s => ⟨s.condition_eq_faulted_iff, s.condition_eq_idle_iff, s.condition.eq_running_iff, fun h => ?_⟩
  obtain ⟨hs, w, hf, hw⟩ := s.condition_eq_idle_iff.1 h
  exact step_of_selfJump hw (Nat.lt_of_succ_lt (fetch_ok_pc_lt hf)) hs hf

/-- Settles O58: each timer by `tick_toNat`; a tick writes nothing else. -/
theorem timerTick_countsDown : Obligations.TimerTick := fun s =>
  ⟨tick_toNat s.dt, tick_toNat s.st, soundOn_iff s, fun _ _ => rfl, rfl, rfl, fun _ => rfl, ⟨rfl, rfl⟩, ⟨rfl, rfl⟩,
    fun _ => rfl⟩

/-- Settles O59: key_in is one write of the keypad. -/
theorem keyInWritesEveryKey : Obligations.KeyInWritesEveryKey := fun _ _ =>
  ⟨fun _ => rfl, fun _ _ => rfl, rfl, rfl, fun _ => rfl, ⟨rfl, rfl⟩, ⟨rfl, rfl⟩, rfl, fun _ => rfl⟩

end Sys2Proof.Machine

/-! ### Load and reset

Both leave `State.zeroed` of a memory: the loaded one (R260) or the one that stood there (R263). -/

namespace Sys2Proof.Machine

/-! #### The state both leave (R39) -/

/-- Every piece of state but memory has its reset value. -/
def ZeroedButMem (t : State) : Prop :=
  (∀ x, t.reg x = 0#8) ∧ t.i = 0#16 ∧ t.pc = 0x200#16 ∧ t.stack = [] ∧ t.dt = 0#8 ∧ t.st = 0#8 ∧
    (∀ k, t.keyDown k = false) ∧ (∀ j, t.fbCell j = false) ∧ t.fault = none

theorem State.keyDown_zeroed (s : State) (m : Memory) (k : RegIx) : (s.zeroed m).keyDown k = false :=
  Vector.getElem_replicate k.isLt

theorem zeroedButMem_zeroed (s : State) (m : Memory) : ZeroedButMem (s.zeroed m) :=
  ⟨s.reg_zeroed m, rfl, rfl, rfl, rfl, rfl, s.keyDown_zeroed m, Framebuffer.cell_clear, rfl⟩

/-! #### The loaded memory, address by address (R260) -/

theorem initialByte_of_le {a : Nat} (h : 80 ≤ a) : initialByte a = 0#8 :=
  List.getD_eq_default _ _ h

section
variable (font : Config.Font) (image : List Byte)

/-- The image begins above the font, so it covers none of it. -/
theorem read_loadedMemory_font {a : Nat} (h : a < 80) : (loadedMemory font image).read a = font[a] := by
  have hfont : a < font.toList.length := by rwa [Vector.length_toList]
  have read_font := read_writeBlock [] 0 font.toList (by rw [Vector.length_toList]; omega) a hfont
  rw [Nat.zero_add, Vector.getElem_toList] at read_font
  rw [loadedMemory, read_writeBlock_of_not_mem _ _ _ _ (by omega), read_font]

theorem read_loadedMemory_image (hlen : image.length ≤ 3584) {a : Nat} (h : a < image.length) :
    (loadedMemory font image).read (0x200 + a) = image[a] :=
  read_writeBlock _ 0x200 image (by omega) a h

theorem read_loadedMemory_outside {a : Nat} (h80 : 80 ≤ a) (h : a < 0x200 ∨ 0x200 + image.length ≤ a) :
    (loadedMemory font image).read a = 0#8 := by
  have outside_font : ¬ (0 ≤ a ∧ a < 0 + font.toList.length) := by rw [Vector.length_toList]; omega
  rw [loadedMemory, read_writeBlock_of_not_mem _ _ _ _ (by omega),
    read_writeBlock_of_not_mem _ _ _ _ outside_font]
  exact initialByte_of_le h80

end

/-! #### The obligations -/

/-- Settles O55: the guard on the length decides, and the memory of the machine it admits is read in its three ranges. -/
theorem loadInitialisesMachine : Obligations.LoadInitialisesMachine := by
  refine fun font s => ⟨fun image hlen => ?_, fun image hlen => if_pos hlen, rfl⟩
  refine ⟨s.zeroed (loadedMemory font image), if_neg (Nat.not_lt.2 hlen), ?_⟩
  exact ⟨fun _ => read_loadedMemory_font font image, fun _ => read_loadedMemory_image font image hlen,
    fun _ => read_loadedMemory_outside font image, zeroedButMem_zeroed s _⟩

/-- Settles O56: a reset is `State.zeroed` of the memory it finds. -/
theorem resetKeepsMemory : Obligations.ResetKeepsMemory :=
  fun s => ⟨fun _ => rfl, zeroedButMem_zeroed s s.mem⟩

end Sys2Proof.Machine

/-! ### The counter of draws

RND is the one instruction that moves the counter (R174), and a host move writes it nowhere (R265). A cycle moves it
only by the instruction it executes. -/

namespace Sys2Proof.Machine

section
variable {s t : State}

/-- RND takes one draw (R174). -/
theorem exec_rnd_draws {x : RegIx} {nn : Byte} (h : exec (.rnd x nn) s = .next t) : t.draws = s.draws + 1 := by
  obtain rfl : s.draw8.2.setReg x (s.draw8.1 &&& nn) = t := Host.Outcome.next.inj h
  rw [State.setReg_draws, State.draw8_draws]

/-- A fault takes no draw, and a completed instruction only where it is RND. -/
theorem exec_draws_of_ne_rnd {i : Instr} (hi : ∀ x nn, i ≠ .rnd x nn) (h : exec i s = .next t) :
    t.draws = s.draws := by
  rcases exec_next_cases h with ⟨_, _, -, rfl⟩ | he
  · exact State.latch_draws s _
  · exact he.draws hi

/-- The fetch and the advance take no draw, so a cycle takes the draws of its instruction (R70). -/
theorem step_draws_of_rnd {w : Word} {x : RegIx} {nn : Byte} (hw : fetch s = .ok w)
    (hd : decodeWord w = .ok (.rnd x nn)) (h : step s = .next t) : t.draws = s.draws + 1 := by
  rw [step_of_decode_ok (fault_eq_none_of_step_next h) hw hd] at h
  rw [exec_rnd_draws h, State.advance_draws]

/-- A cycle that executes no RND ends in a fetch fault, a DecodeError or another instruction (R73, R80). -/
theorem step_draws_of_not_rnd (hno : ∀ w x nn, fetch s = .ok w → decodeWord w ≠ .ok (.rnd x nn))
    (h : step s = .next t) : t.draws = s.draws := by
  rcases step_cases s with ⟨f, -, he⟩ | ⟨-, a, -, he⟩ | ⟨-, w, e, -, -, he⟩ | ⟨-, w, i, hw, hd, he⟩
  · exact absurd (he.symm.trans h) nofun
  · obtain rfl := Host.Outcome.next.inj (he.symm.trans h)
    exact State.latch_draws s _
  · obtain rfl := Host.Outcome.next.inj (he.symm.trans h)
    exact State.advance_draws s
  · have hi : ∀ x nn, i ≠ .rnd x nn := fun x nn hi => hno w x nn hw (hi ▸ hd)
    rw [exec_draws_of_ne_rnd hi (he.symm.trans h), State.advance_draws]

/-- Load and reset let the counter run on (R265), and key_in and timer_tick each write another part of the state. -/
theorem move_draws_of_ne_cycle {m : Move} (hm : m ≠ .cycle) (h : move m s = some t) : t.draws = s.draws := by
  cases m with
  | cycle => exact absurd rfl hm
  | load font image =>
    simp only [move] at h
    split at h
    · obtain ⟨bytes, hb⟩ := hostLoad_ok ‹_›
      obtain rfl := hb.symm.trans (Option.some.inj h)
      exact State.zeroed_draws s _
    · cases h
  | reset =>
    obtain rfl := Option.some.inj h
    exact State.zeroed_draws s _
  | keyIn k16 =>
    obtain rfl := Option.some.inj h
    exact keyIn_draws s k16
  | timerTick =>
    obtain rfl := Option.some.inj h
    exact timerTick_draws s

end

/-- Settles O25: an instruction, a cycle and a host move, each by what it does to the counter. -/
theorem drawsAreNeverReused : Obligations.DrawsAreNeverReused :=
  ⟨fun _ _ _ _ => exec_rnd_draws, fun _ _ _ => exec_draws_of_ne_rnd, fun _ _ _ _ _ => step_draws_of_rnd,
    fun _ _ => step_draws_of_not_rnd, fun _ _ _ => move_draws_of_ne_cycle⟩

end Sys2Proof.Machine

/-! ### The reset state

`State.reset` is one of the states `loadInitialisesMachine` describes: the load of a zero-length image with the default
FONT (log entries 1 and 2). -/

namespace Sys2Proof.Machine

/-- The loaded memory lists nothing, and zeroing the reset state changes nothing. -/
theorem hostLoad_defaultFont_nil : hostLoad defaultFont (some []) State.reset = .ok State.reset :=
  calc hostLoad defaultFont (some []) State.reset
    _ = .ok (State.reset.zeroed (loadedMemory defaultFont [])) := rfl
    _ = .ok State.reset := by rw [loadedMemory_default_nil]; rfl

/-- Settles O57: the values are those of any load, at the default FONT and no image. -/
theorem resetStateIsEmptyLoad : Obligations.ResetStateIsEmptyLoad := by
  obtain ⟨loads, -, -⟩ := loadInitialisesMachine defaultFont State.reset
  obtain ⟨t, ht, font, -, outside, zeroed⟩ := loads [] (Nat.zero_le _)
  obtain rfl : State.reset = t := Except.ok.inj (hostLoad_defaultFont_nil.symm.trans ht)
  exact ⟨ht, font, fun a h80 => outside a h80 (Nat.lt_or_ge a 0x200), zeroed⟩

end Sys2Proof.Machine
